-- ==== Sys2Proof/Word.lean ====
section
/-! DEFINITION. The data of the block: bytes, byte sequences and Blocks (00_scope.md R13). -/

namespace Sys2Proof

/-- A byte, an unsigned integer in 0..255 (00_scope.md R13, 20_memory.md R51). -/
abbrev Byte := BitVec 8

/-- A byte sequence, index 0 first; its length is a natural number (00_scope.md R13). -/
abbrev Bytes := List Byte

/-- A Block: a byte sequence of length exactly `bs` (00_scope.md R6, R13). -/
abbrev Block (bs : Nat) := { s : Bytes // s.length = bs }

end Sys2Proof
end

