-- ==== Sys2Proof/Config.lean ====
section
/-! DEFINITION. The implementation parameters of 00_scope.md section 4: what is fixed for one instance and no command,
host operation or reset changes (R7, R200). A `Config` carries the proofs of its constraints, so an ill-formed one
cannot be built (93_implementation_defined.md U3, U10; log 19). The values the spec leaves OPEN are constants without
a body: nothing can be proved of them beyond their constraints (log 2, log 3). -/

namespace Sys2Proof

/-- A key schedule, "opaque to the engine" (10_state.md R30): the engine stores it and hands it back to the
primitive, never looks inside. Held as the byte string that stands for it, so that states can be compared (log 3). -/
structure KeySchedule where
  code : Bytes
  deriving DecidableEq, Repr, Inhabited

/-- The block cipher primitive (00_scope.md R10, 43_primitive_and_host_interface.md R140 to R146), typed on Blocks of
`bs` bytes. `setKey` answers `none` for the spec's `reject` (R140). `cipher ks` is EncryptBlock under `ks` as a
bijection of the Blocks and its inverse is DecryptBlock: "exact inverse of EncryptBlock under the same schedule"
(R142). Total pure functions: deterministic, no state, no failure but `reject` (R141, R144, R146). -/
structure Prim (bs : Nat) where
  setKey : Bytes → Option KeySchedule
  cipher : KeySchedule → Equiv.Perm (Block bs)
  deriving Inhabited

/-- A well-formed configuration (00_scope.md R6, R8, R9, R10; 70_reset_and_hazards.md R202 (1)). -/
structure Config where
  /-- BLOCKSIZE, in bytes (R6). -/
  BS : Nat
  /-- Capacity of IN, OUT and PBUF, in bytes (R8). -/
  MAXLEN : Nat
  /-- Capacity of KEY, in bytes (R9). -/
  KEYMAX : Nat
  /-- The block cipher primitive; its block width is `BS` by its type (R10, R144). -/
  prim : Prim BS
  bs_pos : 1 ≤ BS
  bs_le : BS ≤ 255
  maxlen_pos : 1 ≤ MAXLEN
  maxlen_mul : MAXLEN % BS = 0
  keymax_pos : 1 ≤ KEYMAX

/-- OPEN (92_eei_decisions.md D2): how many Blocks beyond the first the staging buffers hold (log 2). -/
opaque Config.moreBlocks : Nat

/-- OPEN (92_eei_decisions.md D3): how many bytes beyond the first KEY holds (log 2). -/
opaque Config.moreKeyBytes : Nat

/-- OPEN (92_eei_decisions.md D21): the primitive attached to this hardware (log 3). -/
opaque Config.attachedPrim : Prim 8

/-- This hardware: `BS = 8` (R6, D1; log 1), MAXLEN any positive multiple of it (R8), KEYMAX any positive number (R9),
any primitive that meets the contract (R10). -/
abbrev Config.machine : Config where
  BS := 8
  MAXLEN := 8 * (Config.moreBlocks + 1)
  KEYMAX := Config.moreKeyBytes + 1
  prim := Config.attachedPrim
  bs_pos := by omega
  bs_le := by omega
  maxlen_pos := by omega
  maxlen_mul := by omega
  keymax_pos := by omega

/-- The all-zero Block: IV, "a single Block, fixed to all-zero bytes for every operation" (R7), a constant and not a
register, and the idle value of WORK (10_state.md R28). -/
def zeroBlock (bs : Nat) : Block bs := ⟨List.replicate bs 0#8, List.length_replicate⟩

end Sys2Proof
end

