-- ==== Sys2Proof/Syntax.lean ====
section
/-! DEFINITION. What can be written down: the commands (30_encoding.md R75, one constructor per row of
opcode_table.json), the fields of a command word (R70), the host operations (43_primitive_and_host_interface.md
section 2) and the lines of a host script (30_encoding.md R80, R81). -/

namespace Sys2Proof

/-- Bit `L` of UNPAD and DECRYPT: the policy on a failed padding check (30_encoding.md R72). -/
inductive Policy where
  /-- `L = 0`, fail closed: the plain mnemonics. -/
  | strict
  /-- `L = 1`, the opt-in compatibility mode: UNPAD.L, DECRYPT.L. -/
  | lenient
  deriving DecidableEq, Repr

/-- A command (30_encoding.md R75). A command word carries no other operand: IN, KEY and OUT are implicit (R74). -/
inductive Instr where
  /-- PAD, word 0x00 (41_padding_codec.md R96). -/
  | pad
  /-- UNPAD and UNPAD.L, words 0x01 and 0x05 (41_padding_codec.md R97). -/
  | unpad (l : Policy)
  /-- ENCRYPT, word 0x02 (42_cbc_engine.md R117). -/
  | encrypt
  /-- DECRYPT and DECRYPT.L, words 0x03 and 0x07 (42_cbc_engine.md R118). -/
  | decrypt (l : Policy)
  deriving DecidableEq, Repr

/-- The three fields of a command word in the one format CMD8 (30_encoding.md R70). -/
structure CmdFields where
  /-- `OP`, bits 1:0. -/
  OP : BitVec 2
  /-- `L`, bit 2. -/
  L : Bool
  /-- `RSV`, bits 7:3. -/
  RSV : BitVec 5
  deriving DecidableEq, Repr

/-- Why a word is illegal (30_encoding.md R76). The engine reports the one error IllegalCommand for both. -/
inductive IllegalWord where
  /-- `RSV` is not zero (R73): 248 words. -/
  | reservedBits
  /-- `L = 1` with PAD or ENCRYPT: the words 0x04 and 0x06. -/
  | policyWithoutCheck
  deriving DecidableEq, Repr

/-- A host operation, each one indivisible transition (43_primitive_and_host_interface.md section 2). -/
inductive HostOp where
  /-- H_LOAD_IN(s) (R150). -/
  | loadIn (s : Bytes)
  /-- H_LOAD_KEY(k) (R151). -/
  | loadKey (k : Bytes)
  /-- H_CMD(w), any 8-bit word (R152). -/
  | cmd (w : BitVec 8)
  /-- H_READ_STATUS() (R153). -/
  | readStatus
  /-- H_READ_OUT() (R154). -/
  | readOut
  /-- H_READ_OUT_LEN() (R155). -/
  | readOutLen
  /-- H_READ_IN_LEN() (R155). -/
  | readInLen
  /-- H_READ_KEY_LEN() (R155). -/
  | readKeyLen
  /-- H_RESET() (R156). -/
  | reset
  /-- The pseudo-operation MOVE_OUT_IN (R162): H_READ_OUT, and then H_LOAD_IN of what it returned. -/
  | moveOutIn
  deriving DecidableEq, Repr

/-- A value a host read returns (43_primitive_and_host_interface.md R153 to R155). -/
inductive HostValue where
  | word (w : BitVec 8)
  | bytes (s : Bytes)
  | number (n : Nat)
  deriving DecidableEq, Repr

/-- What an EXPECT line names (30_encoding.md R80, `item`). -/
inductive ExpectItem where
  | STATUS | OUT | OUT_LEN | IN_LEN | KEY_LEN
  deriving DecidableEq, Repr

/-- A line of a host script (30_encoding.md R80). -/
inductive ScriptLine where
  | loadIn (s : Bytes)
  | loadKey (k : Bytes)
  | reset
  /-- A mnemonic: H_CMD with the word of R75. -/
  | command (i : Instr)
  /-- CMD hexword: H_CMD with an arbitrary word. -/
  | cmd (w : BitVec 8)
  | moveOutIn
  /-- A reader's assertion, with no effect on state. -/
  | expect (item : ExpectItem) (value : HostValue)
  deriving DecidableEq, Repr

end Sys2Proof
end

