-- ==== Sys2Proof/WellFormed.lean ====
section
/-! DEFINITION. The checks on what can be written down: a command word's fields (30_encoding.md R70 to R76), a host
operation's sizes (43_primitive_and_host_interface.md R150, R151) and a configuration's numbers (00_scope.md R6, R8,
R9). Every term of `Instr` is well-formed: its constructors carry nothing that a check could refuse. -/

namespace Sys2Proof

/-- The fields are those of one of the six legal words: `RSV` is zero (30_encoding.md R73), and `L` is set only with
UNPAD or DECRYPT, the operations that check padding (R72, R76). -/
def CmdFields.wf (f : CmdFields) : Bool :=
  f.RSV == 0#5 && !(f.L && (f.OP == 0#2 || f.OP == 2#2))

/-- The host operation is defined: a load fits its buffer (43_primitive_and_host_interface.md R150, R151); every other
operation is defined in every state (R152 and the rules after it). -/
def HostOp.wf (c : Config) : HostOp → Bool
  | .loadIn s => decide (s.length ≤ c.MAXLEN)
  | .loadKey k => decide (k.length ≤ c.KEYMAX)
  | .cmd _ => true
  | .readStatus => true
  | .readOut => true
  | .readOutLen => true
  | .readInLen => true
  | .readKeyLen => true
  | .reset => true
  | .moveOutIn => true

/-- The constraints on the numbers of a configuration (00_scope.md R6, R8, R9; 70_reset_and_hazards.md R202 (1)). -/
abbrev Config.Admissible (bs maxlen keymax : Nat) : Prop :=
  1 ≤ bs ∧ bs ≤ 255 ∧ 1 ≤ maxlen ∧ maxlen % bs = 0 ∧ 1 ≤ keymax

/-- Build a configuration, or refuse an ill-formed one: "the spec gives it no meaning: a model refuses it"
(00_scope.md section 4). -/
def Config.build (bs maxlen keymax : Nat) (prim : Prim bs) : Option Config :=
  if h : Config.Admissible bs maxlen keymax then
    some { BS := bs, MAXLEN := maxlen, KEYMAX := keymax, prim := prim, bs_pos := h.1, bs_le := h.2.1,
           maxlen_pos := h.2.2.1, maxlen_mul := h.2.2.2.1, keymax_pos := h.2.2.2.2 }
  else none

end Sys2Proof
end

