-- ==== Sys2Proof/Decode.lean ====
section
/-! DEFINITION. Decode and encode of the one format CMD8 (30_encoding.md R70 to R79). Decoding is total on words and
on byte strings and rejects by name; the encoder is written from the table of R75. -/

namespace Sys2Proof

/-- The fields of a word: `OP = w[1:0]`, `L = w[2]`, `RSV = w[7:3]` (30_encoding.md R70). -/
def CmdFields.ofWord (w : BitVec 8) : CmdFields :=
  { OP := w.extractLsb' 0 2, L := w.getLsbD 2, RSV := w.extractLsb' 3 5 }

/-- The word with these fields, `RSV` above `L` above `OP` (30_encoding.md R70). -/
def CmdFields.toWord (f : CmdFields) : BitVec 8 := f.RSV ++ BitVec.ofBool f.L ++ f.OP

/-- Bit `L` as a policy: 0 strict, 1 lenient (30_encoding.md R72). -/
def policyOfBit (l : Bool) : Policy := if l then .lenient else .strict

/-- The policy as bit `L` (30_encoding.md R72). -/
def bitOfPolicy : Policy → Bool
  | .strict => false
  | .lenient => true

/-- Decode of 30_encoding.md R78, a total function on 8-bit words. -/
def decode (w : BitVec 8) : Except IllegalWord Instr :=
  let f := CmdFields.ofWord w
  if f.RSV ≠ 0#5 then .error .reservedBits
  else if f.L ∧ (f.OP = 0#2 ∨ f.OP = 2#2) then .error .policyWithoutCheck
  else if f.OP = 0#2 then .ok .pad
  else if f.OP = 1#2 then .ok (.unpad (policyOfBit f.L))
  else if f.OP = 2#2 then .ok .encrypt
  else .ok (.decrypt (policyOfBit f.L))

/-- Decode the first byte of a byte string and give back the rest: every command is exactly one word, with no prefix
or second word (30_encoding.md R70, R79). `none` on the empty string. -/
def decodeBytes : Bytes → Option (Except IllegalWord Instr × Bytes)
  | [] => none
  | w :: rest => some (decode w, rest)

/-- The fields of each command's word (30_encoding.md R71, R72, R75). -/
def Instr.fields : Instr → CmdFields
  | .pad => { OP := 0#2, L := false, RSV := 0#5 }
  | .unpad l => { OP := 1#2, L := bitOfPolicy l, RSV := 0#5 }
  | .encrypt => { OP := 2#2, L := false, RSV := 0#5 }
  | .decrypt l => { OP := 3#2, L := bitOfPolicy l, RSV := 0#5 }

/-- The word of a command (30_encoding.md R75). -/
def encode (i : Instr) : BitVec 8 := i.fields.toWord

/-- The instruction the decoder reads from the table's word: bits numbered as opcode_table.json numbers them, one
byte. A command has no bits above its one word, so a number that needs more than `nbits`, or more than eight, bits is
no command (30_encoding.md R79; log 15). -/
def decodeTableWord (nbits w : Nat) : Option Instr :=
  if nbits ≤ 8 ∧ w < 2 ^ nbits then
    match decodeBytes [BitVec.ofNat 8 w] with
    | some (.ok i, _) => some i
    | _ => none
  else none

end Sys2Proof
end

