-- ==== Sys2Proof/Machine/State.lean ====
section
/-! DEFINITION. The state: the nine slots of the engine (10_state.md R20 to R36) and, beside them, the host's side
(log 4). The reasons a step can stop. The state after reset (R36, 70_reset_and_hazards.md R200). -/

namespace Sys2Proof.Machine

/-- One engine instance, for a block size `bs`: the tuple of 10_state.md "and nothing else" (R34), under the spec's
own names. -/
structure Engine (bs : Nat) where
  /-- Input buffer (R20). -/
  IN : Bytes
  /-- Key buffer (R21). -/
  KEY : Bytes
  /-- Output buffer (R22). -/
  OUT : Bytes
  /-- Status register (R25). -/
  STATUS : BitVec 8
  /-- Chaining state (R27). -/
  CHAIN : Block bs
  /-- Working Block (R28). -/
  WORK : Block bs
  /-- Block index (R29). -/
  IDX : Nat
  /-- Key-schedule slot (R30); `none` is the spec's own `none`. -/
  KS : Option KeySchedule
  /-- Working buffer for padded plaintext (R31). -/
  PBUF : Bytes
  deriving DecidableEq, Repr

/-- Reset of the engine: every slot at the value of the table of 10_state.md R36, the same as
70_reset_and_hazards.md R200. -/
def Engine.reset (bs : Nat) : Engine bs where
  IN := []
  KEY := []
  OUT := []
  STATUS := 0#8
  CHAIN := zeroBlock bs
  WORK := zeroBlock bs
  IDX := 0
  KS := none
  PBUF := []

/-- No step of this machine faults: "No access can fault" (20_memory.md R58), every error is the reported outcome of a
command (00_scope.md R16), and no behaviour of the spec is treated as stuck (93_implementation_defined.md section 1). -/
inductive Fault where
  deriving DecidableEq, Repr

/-- Why a step has no meaning. -/
inductive Refusal where
  /-- A command with no meaning yet. Raised by no arm of `exec`. -/
  | notModelled (mnemonic : String)
  /-- H_LOAD_IN of more than MAXLEN bytes. Raised by `hLoadIn`, also where MOVE_OUT_IN expands to it. Safe: "the
  operation is not defined for it, and a model refuses it rather than truncating"
  (43_primitive_and_host_interface.md R150; log 6). -/
  | loadInBeyondCapacity
  /-- H_LOAD_KEY of more than KEYMAX bytes. Raised by `hLoadKey`. Safe: "not defined, a model refuses it"
  (43_primitive_and_host_interface.md R151; log 6). -/
  | loadKeyBeyondCapacity
  deriving DecidableEq, Repr

end Sys2Proof.Machine

namespace Sys2Proof.Machine

/-- The machine: the engine, and the host's side, which is the model's own (log 4). -/
structure State where
  /-- The engine's state (10_state.md). -/
  engine : Engine Config.machine.BS
  /-- The host operations yet to be issued, first one first. -/
  script : List HostOp
  /-- The values host reads have returned, newest first. -/
  seen : List HostValue
  deriving DecidableEq, Repr

/-- The machine right after reset: the engine as 10_state.md R36 says, and a host that has issued nothing and read
nothing (log 4). -/
def State.reset : State where
  engine := Engine.reset Config.machine.BS
  script := []
  seen := []

end Sys2Proof.Machine
end

