-- ==== Sys2Proof/Machine/Flags.lean ====
section
/-! DEFINITION. The outcome of a command (00_scope.md R16, 60_exceptions.md R170) and the status word it is reported
in (10_state.md R25, R32). -/

namespace Sys2Proof.Machine

/-- The closed list of outcomes (00_scope.md R16). -/
inductive CmdOutcome where
  | ok
  | invalidInputLength
  | paddingInvalid
  | keyScheduleError
  | capacityExceeded
  | illegalCommand
  deriving DecidableEq, Repr

/-- The code of an outcome in `STATUS.ERR`; 6 and 7 are never produced (60_exceptions.md R170). -/
def CmdOutcome.code : CmdOutcome → BitVec 3
  | .ok => 0#3
  | .invalidInputLength => 1#3
  | .paddingInvalid => 2#3
  | .keyScheduleError => 3#3
  | .capacityExceeded => 4#3
  | .illegalCommand => 5#3

/-- The command makes a padding check: UNPAD and DECRYPT (10_state.md R32). -/
def checksPadding : Instr → Bool
  | .pad => false
  | .unpad _ => true
  | .encrypt => false
  | .decrypt _ => true

/-- `v` of 43_primitive_and_host_interface.md R152: 1 exactly for an UNPAD or DECRYPT that ends OK. `d` is the decoded
command, `none` for an illegal word. -/
def validBit (d : Option Instr) (o : CmdOutcome) : Bool :=
  match d with
  | none => false
  | some i => checksPadding i && o == .ok

/-- `zext_8( (1 << 4) | (v << 3) | code(e) )` (43_primitive_and_host_interface.md R152). -/
def statusWord (v : Bool) (o : CmdOutcome) : BitVec 8 :=
  (1#8 <<< 4) ||| ((BitVec.ofBool v).setWidth 8 <<< 3) ||| o.code.setWidth 8

/-- `STATUS.ERR`, bits 2:0 (10_state.md R25). -/
def statusErr (w : BitVec 8) : BitVec 3 := w.extractLsb' 0 3

/-- `STATUS.VALID`, bit 3 (10_state.md R25, R32). -/
def statusValid (w : BitVec 8) : Bool := w.getLsbD 3

/-- `STATUS.DONE`, bit 4 (10_state.md R25). -/
def statusDone (w : BitVec 8) : Bool := w.getLsbD 4

/-- Bits 7:5, hardwired zero (10_state.md R25). -/
def statusTop (w : BitVec 8) : BitVec 3 := w.extractLsb' 5 3

end Sys2Proof.Machine
end

