-- ==== Sys2Proof/Machine/Operands.lean ====
section
/-! DEFINITION. Operands: the reads of a buffer (00_scope.md R15, 20_memory.md R51), block addressing (R52), the
exclusive-or of Blocks (42_cbc_engine.md R110), the length registers (10_state.md R23) and the widths of the length
registers and of IDX (00_scope.md R8, 10_state.md R29). -/

namespace Sys2Proof.Machine

/-- `rep(v, n)`: `n` bytes each equal to `v` (00_scope.md R13). -/
def rep (v : Byte) (n : Nat) : Bytes := List.replicate n v

/-- Byte `a` of a buffer; an offset at or beyond the current length does not exist (20_memory.md R51). -/
def byteAt (s : Bytes) (a : Nat) : Option Byte := s[a]?

/-- `MemRead(B, a, n) = B[a..a+n)`, defined only when `a + n <= |B|` (00_scope.md R15). -/
def memRead (s : Bytes) (a n : Nat) : Option Bytes :=
  if a + n ≤ s.length then some ((s.drop a).take n) else none

/-- Block count `N = |s| div BS` (42_cbc_engine.md R111). On a length that is no multiple of BS, where the rule defines
none, the trailing partial Block is not counted (log 21). -/
def blockCount (bs : Nat) (s : Bytes) : Nat := s.length / bs

/-- `Blk(s, i) = s[i*BS .. (i+1)*BS)` for `0 <= i < |s| div BS` (20_memory.md R52); no other Block exists, nor does a
trailing partial one on a length that is no multiple of BS, where the rule defines none (log 21). -/
def blk (bs : Nat) (s : Bytes) (i : Nat) : Option (Block bs) :=
  match memRead s (i * bs) bs with
  | none => none
  | some b => if h : i < blockCount bs s ∧ b.length = bs then some ⟨b, h.2⟩ else none

/-- `XorBlock(a, b)`: byte by byte at equal indices, no carry between lanes (42_cbc_engine.md R110). -/
def xorBlock {bs : Nat} (a b : Block bs) : Block bs :=
  ⟨List.zipWith (fun x y => x ^^^ y) a.1 b.1, by simp [a.2, b.2]⟩

/-- IN_LEN (10_state.md R23). -/
def inLen {bs : Nat} (e : Engine bs) : Nat := e.IN.length

/-- KEY_LEN (10_state.md R23). -/
def keyLen {bs : Nat} (e : Engine bs) : Nat := e.KEY.length

/-- OUT_LEN (10_state.md R23). -/
def outLen {bs : Nat} (e : Engine bs) : Nat := e.OUT.length

/-- `ceil(log2(n))`, for `n >= 1`. -/
def ceilLog2 (n : Nat) : Nat := Nat.clog 2 n

/-- `LENW = ceil(log2(MAXLEN + 1))`, the width in bits of the length registers IN_LEN and OUT_LEN (00_scope.md R8,
10_state.md R23). The spec gives KEY_LEN no width. -/
def lenWidth (c : Config) : Nat := ceilLog2 (c.MAXLEN + 1)

/-- `ceil(log2(MAXLEN div BS + 1))`, the bits IDX needs (10_state.md R29). -/
def idxWidth (c : Config) : Nat := ceilLog2 (c.MAXLEN / c.BS + 1)

/-- The register IN_LEN, LENW bits wide (00_scope.md R8); a view of IN, "not separate state" (10_state.md R23). -/
def inLenReg (c : Config) (e : Engine c.BS) : BitVec (lenWidth c) := BitVec.ofNat _ (inLen e)

/-- The register OUT_LEN, LENW bits wide (00_scope.md R8); a view of OUT, "not separate state" (10_state.md R23). -/
def outLenReg (c : Config) (e : Engine c.BS) : BitVec (lenWidth c) := BitVec.ofNat _ (outLen e)

/-- IDX in the bits it needs (10_state.md R29). -/
def idxReg (c : Config) (e : Engine c.BS) : BitVec (idxWidth c) := BitVec.ofNat _ e.IDX

end Sys2Proof.Machine
end

