-- ==== Sys2Proof/Machine/Ops.lean ====
section
/-! DEFINITION. The shared operations: the calls of the primitive, how a body ends and how an error is reported
(60_exceptions.md R176, the spec's "trap entry"), the clean-up (10_state.md R33), the frame around every command
(43_primitive_and_host_interface.md R152), and the host's loads (R150, R151). After an error there is nothing to
return from: the next command is the spec's "trap return" (60_exceptions.md R180). -/

namespace Sys2Proof.Machine

/-- EncryptBlock(ks, x) (43_primitive_and_host_interface.md R141); `E(ks, x)` in 42_cbc_engine.md. -/
def encryptBlock (c : Config) (ks : KeySchedule) (x : Block c.BS) : Block c.BS := c.prim.cipher ks x

/-- DecryptBlock(ks, x) (43_primitive_and_host_interface.md R142); `D(ks, x)` in 42_cbc_engine.md. -/
def decryptBlock (c : Config) (ks : KeySchedule) (x : Block c.BS) : Block c.BS := (c.prim.cipher ks).symm x

/-- How a command body ends: the engine as the body leaves it, and the outcome. -/
structure Ending (bs : Nat) where
  engine : Engine bs
  outcome : CmdOutcome
  deriving DecidableEq, Repr

/-- `outcome OK`: the body ran to its end. -/
def finish {bs : Nat} (e : Engine bs) : Ending bs := { engine := e, outcome := .ok }

/-- `raise E`: the body stops here, OUT keeps the value it has, nothing else is saved (60_exceptions.md R176). -/
def raise {bs : Nat} (o : CmdOutcome) (e : Engine bs) : Ending bs := { engine := e, outcome := o }

/-- The command is an "encrypt/decrypt call": its clean-up empties KEY (10_state.md R33, 60_exceptions.md R176). -/
def consumesKey : Option Instr → Bool
  | none => false
  | some .pad => false
  | some (.unpad _) => false
  | some .encrypt => true
  | some (.decrypt _) => true

/-- End-of-command clean-up (10_state.md R33), on every outcome. -/
def cleanup {bs : Nat} (d : Option Instr) (e : Engine bs) : Engine bs :=
  { e with
    KEY := if consumesKey d then [] else e.KEY
    KS := none
    CHAIN := zeroBlock bs
    WORK := zeroBlock bs
    IDX := 0
    PBUF := [] }

/-- The frame around every command body (43_primitive_and_host_interface.md R152): OUT emptied first, the body, the
clean-up, and the one write of STATUS last. -/
def runFrame {bs : Nat} (d : Option Instr) (body : Engine bs → Ending bs) (e : Engine bs) : Engine bs :=
  let r := body { e with OUT := [] }
  { cleanup d r.engine with STATUS := statusWord (validBit d r.outcome) r.outcome }

/-- An illegal word is "a command of its own" (30_encoding.md R76, 60_exceptions.md R174): the frame around a body that
only raises IllegalCommand. -/
def cmdIllegal {bs : Nat} (e : Engine bs) : Engine bs := runFrame none (raise .illegalCommand) e

/-- H_LOAD_IN(s): IN replaced whole, nothing else changed; not defined beyond MAXLEN
(43_primitive_and_host_interface.md R150). -/
def loadIn (c : Config) (s : Bytes) (e : Engine c.BS) : Option (Engine c.BS) :=
  if s.length ≤ c.MAXLEN then some { e with IN := s } else none

/-- H_LOAD_KEY(k): KEY replaced whole, nothing else changed; not defined beyond KEYMAX
(43_primitive_and_host_interface.md R151). -/
def loadKey (c : Config) (k : Bytes) (e : Engine c.BS) : Option (Engine c.BS) :=
  if k.length ≤ c.KEYMAX then some { e with KEY := k } else none

/-- Apply an engine operation in a whole state; the host's side is untouched. -/
def State.onEngine (f : Engine Config.machine.BS → Engine Config.machine.BS) (s : State) : State :=
  { s with engine := f s.engine }

/-- A host read returns `v`: recorded on the host's side, the engine untouched (20_memory.md R56; log 4). -/
def State.returning (v : HostValue) (s : State) : State := { s with seen := v :: s.seen }

end Sys2Proof.Machine
end

