-- ==== Sys2Proof/Machine/Codec.lean ====
section
/-! DEFINITION. The padding codec (41_padding_codec.md): the pure functions PadCount, Pad, UnpadCheck and Strip, and
the commands PAD and UNPAD. -/

namespace Sys2Proof.Machine

/-- `PadCount(L) = BS - (L mod BS)`, one formula and no special case (R90). -/
def padCount (bs L : Nat) : Nat := bs - L % bs

/-- The byte whose value is the number `n` (R91). -/
def countByte (n : Nat) : Byte := BitVec.ofNat 8 n

/-- `Pad(s) = s ++ rep(c, c)` with `c = PadCount(|s|)` (R91). -/
def padBytes (bs : Nat) (s : Bytes) : Bytes :=
  s ++ rep (countByte (padCount bs s.length)) (padCount bs s.length)

/-- The scan of the footer: `b[|b| - 1 - j] = c` for every `j` in `0..c-1` (R93). A `j` beyond the buffer names no byte
and does not match (20_memory.md R51); on the buffers the spec calls the test on there is none (log 8). -/
def footerMatches (b : Bytes) (c : Byte) : Bool :=
  (List.range c.toNat).all fun j => decide (j < b.length) && byteAt b (b.length - 1 - j) == some c

/-- The padding test of R93: the last byte is in `1..BS` and the footer it announces matches. An empty buffer has no
last byte and is not valid. R93 defines the test on positive block-aligned lengths only; DESIGN CHOICE: on any other
non-empty buffer the model runs the same test, which may answer valid (log 8). -/
def paddingValid (bs : Nat) (b : Bytes) : Bool :=
  match byteAt b (b.length - 1) with
  | none => false
  | some c => decide (1 ≤ c.toNat) && decide (c.toNat ≤ bs) && footerMatches b c

/-- The number in the last byte of a buffer, 0 for the empty buffer, where it is not used. -/
def lastCount (b : Bytes) : Nat :=
  match byteAt b (b.length - 1) with
  | none => 0
  | some c => c.toNat

/-- `UnpadCheck(b)` (R93): the length without the footer and `true`, or the full length and `false`; off the domain of R93
by the same test (log 8). -/
def unpadCheck (bs : Nat) (b : Bytes) : Nat × Bool :=
  if paddingValid bs b then (b.length - lastCount b, true) else (b.length, false)

/-- `Strip(b, l)` (R94): what is delivered under the policy. The third component of the spec's triple, `valid`, is
true exactly when the outcome is OK. Off the domain of R93 it follows `unpadCheck` (log 8). -/
def strip (bs : Nat) (b : Bytes) (l : Policy) : CmdOutcome × Bytes :=
  let r := unpadCheck bs b
  if r.2 then (.ok, b.take r.1)
  else
    match l with
    | .lenient => (.paddingInvalid, b)
    | .strict => (.paddingInvalid, [])

/-- The condition of CapacityExceeded: `|IN| + PadCount(|IN|) > MAXLEN` (60_exceptions.md R173). -/
def exceedsCapacity (c : Config) (s : Bytes) : Bool := decide (c.MAXLEN < s.length + padCount c.BS s.length)

/-- The condition of InvalidInputLength: `|IN| = 0 or |IN| mod BS != 0` (60_exceptions.md R171). -/
def badLength (bs : Nat) (s : Bytes) : Bool := decide (s.length = 0 ∨ s.length % bs ≠ 0)

/-- Deliver a `Strip` result: OUT, and the outcome it is reported with (R97, 42_cbc_engine.md R118). -/
def deliver {bs : Nat} (r : CmdOutcome × Bytes) (e : Engine bs) : Ending bs :=
  if r.1 = .ok then finish { e with OUT := r.2 } else raise r.1 { e with OUT := r.2 }

/-- Body of PAD (R96). -/
def padBody (c : Config) (e : Engine c.BS) : Ending c.BS :=
  if exceedsCapacity c e.IN then raise .capacityExceeded e
  else finish { e with OUT := padBytes c.BS e.IN }

/-- Body of UNPAD and UNPAD.L (R97). -/
def unpadBody (c : Config) (l : Policy) (e : Engine c.BS) : Ending c.BS :=
  if badLength c.BS e.IN then raise .invalidInputLength e
  else deliver (strip c.BS e.IN l) e

/-- The whole command PAD on an engine. -/
def cmdPad (c : Config) (e : Engine c.BS) : Engine c.BS := runFrame (some .pad) (padBody c) e

/-- The whole command UNPAD or UNPAD.L on an engine. -/
def cmdUnpad (c : Config) (l : Policy) (e : Engine c.BS) : Engine c.BS :=
  runFrame (some (.unpad l)) (unpadBody c l) e

/-- PAD, word 0x00 (R96). -/
def execPad (s : State) : Host.Outcome State Fault Refusal := .next (s.onEngine (cmdPad Config.machine))

/-- UNPAD and UNPAD.L, words 0x01 and 0x05 (R97). -/
def execUnpad (l : Policy) (s : State) : Host.Outcome State Fault Refusal :=
  .next (s.onEngine (cmdUnpad Config.machine l))

end Sys2Proof.Machine
end

