-- ==== Sys2Proof/Machine/Chaining.lean ====
section
/-! DEFINITION. The chaining engine (42_cbc_engine.md): the block steps EncStep and DecStep on the engine's own slots,
the loops over them, the recurrences CbcEnc and CbcDec they realise, and the commands ENCRYPT and DECRYPT. The
commands run the steps; that the steps compute the recurrences is stated, not assumed (R113, R115, R128). -/

namespace Sys2Proof.Machine

/-- EncStep (R112), one block of encryption. `none` where what the step requires does not hold, a case R112 does not
define (log 22): `KS` is not none and `IDX < |PBUF| div BS`. -/
def encStep (c : Config) (e : Engine c.BS) : Option (Engine c.BS) :=
  match e.KS, blk c.BS e.PBUF e.IDX with
  | some ks, some p =>
    let work := xorBlock p e.CHAIN
    let chain := encryptBlock c ks work
    some { e with WORK := work, CHAIN := chain, OUT := e.OUT ++ chain.1, IDX := e.IDX + 1 }
  | _, _ => none

/-- DecStep (R114), one block of decryption. The new CHAIN is "the INPUT ciphertext block, not a decrypted value".
`none` where what the step requires does not hold, a case R114 does not define (log 22): `KS` is not none and
`IDX < |IN| div BS`. -/
def decStep (c : Config) (e : Engine c.BS) : Option (Engine c.BS) :=
  match e.KS, blk c.BS e.IN e.IDX with
  | some ks, some ct =>
    let work := decryptBlock c ks ct
    some { e with WORK := work, PBUF := e.PBUF ++ (xorBlock work e.CHAIN).1, CHAIN := ct, IDX := e.IDX + 1 }
  | _, _ => none

/-- Repeat a block step, at most `n` times, until it does not apply: the `while IDX < N` of R117 and R118. `n` is the
block count, so the loop ends by its guard and never for want of `n` (R128; log 9). -/
def stepLoop {bs : Nat} (f : Engine bs → Option (Engine bs)) : Nat → Engine bs → Engine bs
  | 0, e => e
  | n + 1, e =>
    match f e with
    | none => e
    | some e' => stepLoop f n e'

/-- `C_i = E(ks, XorBlock(P_i, C_{i-1}))` over a list of Blocks from the chaining value `prev` (R113). -/
def encBlocks (c : Config) (ks : KeySchedule) : Block c.BS → List (Block c.BS) → List (Block c.BS)
  | _, [] => []
  | prev, p :: ps =>
    let ct := encryptBlock c ks (xorBlock p prev)
    ct :: encBlocks c ks ct ps

/-- `P_i = XorBlock(D(ks, C_i), C_{i-1})` over a list of Blocks from the chaining value `prev` (R115). -/
def decBlocks (c : Config) (ks : KeySchedule) : Block c.BS → List (Block c.BS) → List (Block c.BS)
  | _, [] => []
  | prev, ct :: cts => xorBlock (decryptBlock c ks ct) prev :: decBlocks c ks ct cts

/-- The Blocks `Blk(s, 0) .. Blk(s, N-1)` of a buffer (42_cbc_engine.md R111). DESIGN CHOICE: on a length that is no
multiple of BS, where the rule defines no Blocks, the trailing partial one is dropped (log 21). -/
def blocksOf (bs : Nat) (s : Bytes) : List (Block bs) := (List.range (blockCount bs s)).filterMap (blk bs s)

/-- The concatenation of Blocks (20_memory.md R52). -/
def joinBlocks {bs : Nat} (l : List (Block bs)) : Bytes := (l.map Subtype.val).flatten

/-- CbcEnc(ks, p) (R113), with `C_{-1} = IV` (R116). R113 defines it for `|p| = N*BS`; DESIGN CHOICE: off that domain the
trailing partial Block of `p` is dropped (log 21). -/
def cbcEnc (c : Config) (ks : KeySchedule) (p : Bytes) : Bytes :=
  joinBlocks (encBlocks c ks (zeroBlock c.BS) (blocksOf c.BS p))

/-- CbcDec(ks, ct) (R115), with `Q_{-1} = IV` (R116). R115 defines it for `|c| = N*BS`; DESIGN CHOICE: off that domain the
trailing partial Block of `ct` is dropped (log 21). -/
def cbcDec (c : Config) (ks : KeySchedule) (ct : Bytes) : Bytes :=
  joinBlocks (decBlocks c ks (zeroBlock c.BS) (blocksOf c.BS ct))

/-- The engine as the block loop of ENCRYPT finds it (R117 steps 1 to 3). -/
def encStart (c : Config) (ks : KeySchedule) (e : Engine c.BS) : Engine c.BS :=
  { e with PBUF := padBytes c.BS e.IN, KS := some ks, CHAIN := zeroBlock c.BS, IDX := 0 }

/-- The engine as the block loop of DECRYPT finds it (R118 steps 1 and 2). -/
def decStart (c : Config) (ks : KeySchedule) (e : Engine c.BS) : Engine c.BS :=
  { e with KS := some ks, CHAIN := zeroBlock c.BS, IDX := 0, PBUF := [] }

/-- The block loop of ENCRYPT: `while IDX < |PBUF| div BS : EncStep` (R117 step 4). -/
def encLoop (c : Config) (e : Engine c.BS) : Engine c.BS := stepLoop (encStep c) (blockCount c.BS e.PBUF) e

/-- The block loop of DECRYPT: `while IDX < |IN| div BS : DecStep` (R118 steps 3 and 4). -/
def decLoop (c : Config) (e : Engine c.BS) : Engine c.BS := stepLoop (decStep c) (blockCount c.BS e.IN) e

/-- Body of ENCRYPT (R117): the capacity check, Pad, SetKey of the whole of KEY, and the block loop. -/
def encryptBody (c : Config) (e : Engine c.BS) : Ending c.BS :=
  if exceedsCapacity c e.IN then raise .capacityExceeded e
  else
    match c.prim.setKey e.KEY with
    | none => raise .keyScheduleError { e with PBUF := padBytes c.BS e.IN }
    | some ks => finish (encLoop c (encStart c ks e))

/-- Body of DECRYPT and DECRYPT.L (R118): the length check, SetKey of the whole of KEY, the block loop, and Strip. -/
def decryptBody (c : Config) (l : Policy) (e : Engine c.BS) : Ending c.BS :=
  if badLength c.BS e.IN then raise .invalidInputLength e
  else
    match c.prim.setKey e.KEY with
    | none => raise .keyScheduleError e
    | some ks =>
      let e' := decLoop c (decStart c ks e)
      deliver (strip c.BS e'.PBUF l) e'

/-- The whole command ENCRYPT on an engine. -/
def cmdEncrypt (c : Config) (e : Engine c.BS) : Engine c.BS := runFrame (some .encrypt) (encryptBody c) e

/-- The whole command DECRYPT or DECRYPT.L on an engine. -/
def cmdDecrypt (c : Config) (l : Policy) (e : Engine c.BS) : Engine c.BS :=
  runFrame (some (.decrypt l)) (decryptBody c l) e

/-- ENCRYPT, word 0x02 (R117). -/
def execEncrypt (s : State) : Host.Outcome State Fault Refusal := .next (s.onEngine (cmdEncrypt Config.machine))

/-- DECRYPT and DECRYPT.L, words 0x03 and 0x07 (R118). -/
def execDecrypt (l : Policy) (s : State) : Host.Outcome State Fault Refusal :=
  .next (s.onEngine (cmdDecrypt Config.machine l))

end Sys2Proof.Machine
end

