-- ==== Sys2Proof/Machine/Dispatch.lean ====
section
/-! DEFINITION. One arm per command (30_encoding.md R75). -/

namespace Sys2Proof.Machine

def exec (i : Instr) (s : State) : Host.Outcome State Fault Refusal :=
  match i with
  | .pad => Sys2Proof.Machine.execPad s
  | .unpad l => Sys2Proof.Machine.execUnpad l s
  | .encrypt => Sys2Proof.Machine.execEncrypt s
  | .decrypt l => Sys2Proof.Machine.execDecrypt l s

end Sys2Proof.Machine
end

