-- ==== Sys2Proof/Machine/HostOps.lean ====
section
/-! DEFINITION. The host operations on the whole machine (43_primitive_and_host_interface.md R150 to R156, R162). Each
is one indivisible transition (20_memory.md R59); they are all the host can do (R157). -/

namespace Sys2Proof.Machine

/-- H_LOAD_IN(b) (R150). -/
def hLoadIn (b : Bytes) (s : State) : Host.Outcome State Fault Refusal :=
  match loadIn Config.machine b s.engine with
  | some e => .next { s with engine := e }
  | none => .refused .loadInBeyondCapacity

/-- H_LOAD_KEY(k) (R151). -/
def hLoadKey (k : Bytes) (s : State) : Host.Outcome State Fault Refusal :=
  match loadKey Config.machine k s.engine with
  | some e => .next { s with engine := e }
  | none => .refused .loadKeyBeyondCapacity

/-- H_CMD(w) (R152): decode, and run the command whole; an illegal word is a command of its own (30_encoding.md R76).
The word is not stored (10_state.md R24). -/
def hCmd (w : BitVec 8) (s : State) : Host.Outcome State Fault Refusal :=
  match decode w with
  | .ok i => exec i s
  | .error _ => .next (s.onEngine cmdIllegal)

/-- H_READ_STATUS() (R153). -/
def hReadStatus (s : State) : Host.Outcome State Fault Refusal := .next (s.returning (.word s.engine.STATUS))

/-- H_READ_OUT() (R154): all of OUT, in order, and no more. -/
def hReadOut (s : State) : Host.Outcome State Fault Refusal := .next (s.returning (.bytes s.engine.OUT))

/-- H_READ_OUT_LEN() (R155). -/
def hReadOutLen (s : State) : Host.Outcome State Fault Refusal := .next (s.returning (.number (outLen s.engine)))

/-- H_READ_IN_LEN() (R155). -/
def hReadInLen (s : State) : Host.Outcome State Fault Refusal := .next (s.returning (.number (inLen s.engine)))

/-- H_READ_KEY_LEN() (R155). -/
def hReadKeyLen (s : State) : Host.Outcome State Fault Refusal := .next (s.returning (.number (keyLen s.engine)))

/-- H_RESET() (R156, 70_reset_and_hazards.md R200): every slot of the engine at its reset value; the host's own side is
not the engine's and stays (log 13). -/
def hReset (s : State) : Host.Outcome State Fault Refusal :=
  .next (s.onEngine fun _ => Engine.reset Config.machine.BS)

/-- MOVE_OUT_IN, `t <- H_READ_OUT() ; H_LOAD_IN(t)` (R162): this transition reads OUT, and the load of what it returned
is the host's next operation (log 7). -/
def hMoveOutIn (s : State) : Host.Outcome State Fault Refusal :=
  .next { s.returning (.bytes s.engine.OUT) with script := .loadIn s.engine.OUT :: s.script }

/-- One host operation. -/
def hostOp (op : HostOp) (s : State) : Host.Outcome State Fault Refusal :=
  match op with
  | .loadIn b => hLoadIn b s
  | .loadKey k => hLoadKey k s
  | .cmd w => hCmd w s
  | .readStatus => hReadStatus s
  | .readOut => hReadOut s
  | .readOutLen => hReadOutLen s
  | .readInLen => hReadInLen s
  | .readKeyLen => hReadKeyLen s
  | .reset => hReset s
  | .moveOutIn => hMoveOutIn s

/-- Nothing is pending: the engine is idle, "and idle keeps all host-visible state" (60_exceptions.md R184; log 5). -/
def idleStep (s : State) : Host.Outcome State Fault Refusal := .next s

/-- Put an operation where the host issues its next one. -/
def State.pushOp (op : HostOp) (s : State) : State := { s with script := op :: s.script }

end Sys2Proof.Machine
end

