-- ==== Sys2Proof/Machine/Step.lean ====
section
/-! DEFINITION. One step: the host's next operation, whole (43_primitive_and_host_interface.md section 2, 20_memory.md
R59). There is no program counter and no fetch (10_state.md R29, 20_memory.md R61): the next command is the next word
the host writes to CMD (log 4). -/

namespace Sys2Proof.Machine

/-- Take the first pending host operation and perform it; with none pending the engine is idle. -/
def step (s : State) : Host.Outcome State Fault Refusal :=
  match s.script with
  | [] => idleStep s
  | op :: rest => hostOp op { s with script := rest }

/-- The state with the word's H_CMD as the host's very next operation; everything else stays, what was pending comes
after it (log 4). A command is one 8-bit word (30_encoding.md R70), so `nbits` is 8 and no bit lies above it. -/
def State.withFetchWord (s : State) (nbits w : Nat) : State :=
  s.pushOp (.cmd (BitVec.ofNat 8 (w % 2 ^ nbits)))

end Sys2Proof.Machine
end

