-- ==== Sys2Proof/Machine/Calls.lean ====
section
/-! DEFINITION. The calls of the primitive that a command makes, in order (42_cbc_engine.md R127, 20_memory.md R63),
read off the very steps its block loop takes. A view of a command, not state: the engine keeps no count (10_state.md
R34; log 18). -/

namespace Sys2Proof.Machine

/-- One call of the primitive, with its arguments (43_primitive_and_host_interface.md R140 to R142). -/
inductive PrimCall (bs : Nat) where
  | setKey (k : Bytes)
  | encryptBlock (ks : KeySchedule) (x : Block bs)
  | decryptBlock (ks : KeySchedule) (x : Block bs)
  deriving DecidableEq, Repr

/-- The engine after each step of a block loop, in order: the stepwise view of R128. -/
def stepTrace {bs : Nat} (f : Engine bs → Option (Engine bs)) : Nat → Engine bs → List (Engine bs)
  | 0, _ => []
  | n + 1, e =>
    match f e with
    | none => []
    | some e' => e' :: stepTrace f n e'

/-- The calls of ENCRYPT: EncryptBlock is handed WORK (R112). -/
def encryptCalls (c : Config) (e : Engine c.BS) : List (PrimCall c.BS) :=
  if exceedsCapacity c e.IN then []
  else
    match c.prim.setKey e.KEY with
    | none => [.setKey e.KEY]
    | some ks =>
      let e' := encStart c ks e
      .setKey e.KEY :: (stepTrace (encStep c) (blockCount c.BS e'.PBUF) e').map fun t => .encryptBlock ks t.WORK

/-- The calls of DECRYPT: DecryptBlock is handed the ciphertext Block that the step leaves in CHAIN (R114). -/
def decryptCalls (c : Config) (e : Engine c.BS) : List (PrimCall c.BS) :=
  if badLength c.BS e.IN then []
  else
    match c.prim.setKey e.KEY with
    | none => [.setKey e.KEY]
    | some ks =>
      let e' := decStart c ks e
      .setKey e.KEY :: (stepTrace (decStep c) (blockCount c.BS e'.IN) e').map fun t => .decryptBlock ks t.CHAIN

/-- The calls of a command, `none` for an illegal word (R127). -/
def callsOf (c : Config) (d : Option Instr) (e : Engine c.BS) : List (PrimCall c.BS) :=
  match d with
  | none => []
  | some .pad => []
  | some (.unpad _) => []
  | some .encrypt => encryptCalls c e
  | some (.decrypt _) => decryptCalls c e

/-- How many calls of SetKey, EncryptBlock and DecryptBlock there are: the three columns of the table of R127. -/
def callCounts {bs : Nat} : List (PrimCall bs) → Nat × Nat × Nat
  | [] => (0, 0, 0)
  | .setKey _ :: l => let r := callCounts l; (r.1 + 1, r.2.1, r.2.2)
  | .encryptBlock _ _ :: l => let r := callCounts l; (r.1, r.2.1 + 1, r.2.2)
  | .decryptBlock _ _ :: l => let r := callCounts l; (r.1, r.2.1, r.2.2 + 1)

end Sys2Proof.Machine
end

