-- ==== Sys2Proof/Machine/Interface.lean ====
section
/-! DEFINITION. The same commands and host operations on an engine of ANY well-formed configuration, and the
function-level interface of the source built from them: EncryptF and DecryptF (43_primitive_and_host_interface.md
R143), Encrypt and Decrypt (R160, R161), MOVE_OUT_IN (R162); and what the host owes (R158). The machine is the case
`Config.machine`. -/

namespace Sys2Proof.Machine

/-- A command, whole (43_primitive_and_host_interface.md R152). -/
def runCmd (c : Config) (i : Instr) (e : Engine c.BS) : Engine c.BS :=
  match i with
  | .pad => cmdPad c e
  | .unpad l => cmdUnpad c l e
  | .encrypt => cmdEncrypt c e
  | .decrypt l => cmdDecrypt c l e

/-- H_CMD(w), any word (R152). -/
def cmdWord (c : Config) (w : BitVec 8) (e : Engine c.BS) : Engine c.BS :=
  match decode w with
  | .ok i => runCmd c i e
  | .error _ => cmdIllegal e

/-- What a host operation does to the engine; `none` where the operation is not defined (R150, R151). MOVE_OUT_IN is
both of its operations here. -/
def opOnEngine (c : Config) (op : HostOp) (e : Engine c.BS) : Option (Engine c.BS) :=
  match op with
  | .loadIn s => loadIn c s e
  | .loadKey k => loadKey c k e
  | .cmd w => some (cmdWord c w e)
  | .readStatus => some e
  | .readOut => some e
  | .readOutLen => some e
  | .readInLen => some e
  | .readKeyLen => some e
  | .reset => some (Engine.reset c.BS)
  | .moveOutIn => loadIn c e.OUT e

/-- A sequence of host operations, in the order the host issues them (20_memory.md R59). -/
def runOps (c : Config) : List HostOp → Engine c.BS → Option (Engine c.BS)
  | [], e => some e
  | op :: ops, e =>
    match opOnEngine c op e with
    | none => none
    | some e' => runOps c ops e'

/-- `if s[2:0] = 0 : return H_READ_OUT() else : fail with code s[2:0]` (R160, R161): a host that "reads `STATUS` before
trusting `OUT`" (R158). -/
def callResult {bs : Nat} (e : Engine bs) : Except (BitVec 3) Bytes :=
  if statusErr e.STATUS = 0#3 then .ok e.OUT else .error (statusErr e.STATUS)

/-- The key staged by an H_LOAD_KEY that no ENCRYPT, DECRYPT or reset has consumed since: an operation's effect on it, with
`none` for no such key (R158, 70_reset_and_hazards.md R203). The empty key is a key like any other (R151). -/
def stagedKey (k : Option Bytes) (op : HostOp) : Option Bytes :=
  match op with
  | .loadIn _ => k
  | .loadKey b => some b
  | .cmd w => if consumesKey (decode w).toOption then none else k
  | .readStatus => k
  | .readOut => k
  | .readOutLen => k
  | .readInLen => k
  | .readKeyLen => k
  | .reset => none
  | .moveOutIn => k

/-- What the host owes a command, on the engine it is issued to (R158): a key staged "every time" before ENCRYPT and
DECRYPT, and `|P| < MAXLEN` for PAD and ENCRYPT. -/
def commandDuty (c : Config) (k : Option Bytes) (i : Instr) (e : Engine c.BS) : Bool :=
  match i with
  | .pad => decide (e.IN.length < c.MAXLEN)
  | .unpad _ => true
  | .encrypt => k.isSome && decide (e.IN.length < c.MAXLEN)
  | .decrypt _ => k.isSome

/-- What the host owes before one operation: of the operations only a legal command is owed anything (R158; log 23). -/
def opDuty (c : Config) (k : Option Bytes) (op : HostOp) (e : Engine c.BS) : Bool :=
  match op with
  | .cmd w =>
    match decode w with
    | .ok i => commandDuty c k i e
    | .error _ => true
  | .loadIn _ => true
  | .loadKey _ => true
  | .readStatus => true
  | .readOut => true
  | .readOutLen => true
  | .readInLen => true
  | .readKeyLen => true
  | .reset => true
  | .moveOutIn => true

/-- The host meets what it owes (R158) all along a sequence of operations, each defined where it is issued (R150, R151);
`k` is the key staged before the sequence. -/
def meetsDuties (c : Config) : Option Bytes → List HostOp → Engine c.BS → Bool
  | _, [], _ => true
  | k, op :: ops, e =>
    opDuty c k op e &&
      match opOnEngine c op e with
      | none => false
      | some e' => meetsDuties c (stagedKey k op) ops e'

/-- Encrypt(P, K) (R160): the engine afterwards and what the call returns; `none` where a load is not defined. -/
def encryptCall (c : Config) (P K : Bytes) (e : Engine c.BS) : Option (Engine c.BS × Except (BitVec 3) Bytes) :=
  match runOps c [.loadIn P, .loadKey K, .cmd 0x02#8] e with
  | none => none
  | some e' => some (e', callResult e')

/-- Decrypt(C, K) with word 0x03 and Decrypt.L(C, K) with word 0x07 (R161). -/
def decryptCall (c : Config) (l : Policy) (C K : Bytes) (e : Engine c.BS) :
    Option (Engine c.BS × Except (BitVec 3) Bytes) :=
  match runOps c [.loadIn C, .loadKey K, .cmd (encode (.decrypt l))] e with
  | none => none
  | some e' => some (e', callResult e')

/-- EncryptF(P, K) (R143). -/
def encryptF (c : Config) (P K : Bytes) : CmdOutcome × Bytes :=
  if c.MAXLEN < P.length + padCount c.BS P.length then (.capacityExceeded, [])
  else
    match c.prim.setKey K with
    | none => (.keyScheduleError, [])
    | some ks => (.ok, cbcEnc c ks (padBytes c.BS P))

/-- DecryptF(C, K, l) (R143). -/
def decryptF (c : Config) (C K : Bytes) (l : Policy) : CmdOutcome × Bytes :=
  if C.length = 0 ∨ C.length % c.BS ≠ 0 then (.invalidInputLength, [])
  else
    match c.prim.setKey K with
    | none => (.keyScheduleError, [])
    | some ks => strip c.BS (cbcDec c ks C) l

/-- What PAD delivers for `P`: `(OK, Pad(IN))` or `(CapacityExceeded, [])` (R143). -/
def padF (c : Config) (P : Bytes) : CmdOutcome × Bytes :=
  if c.MAXLEN < P.length + padCount c.BS P.length then (.capacityExceeded, []) else (.ok, padBytes c.BS P)

/-- What UNPAD delivers for `B`: `(InvalidInputLength, [])` or `Strip(IN, l)` (R143). -/
def unpadF (c : Config) (B : Bytes) (l : Policy) : CmdOutcome × Bytes :=
  if B.length = 0 ∨ B.length % c.BS ≠ 0 then (.invalidInputLength, []) else strip c.BS B l

end Sys2Proof.Machine
end

