-- ==== Sys2Proof/Machine/Script.lean ====
section
/-! DEFINITION. Host scripts (30_encoding.md R80, R81): what a line stands for, the encoding of a script, what an
EXPECT line asserts, and a reader of the text of a script by the grammar of R80 (log 14). -/

namespace Sys2Proof.Machine

/-- The host operations a line stands for (R80); an EXPECT line has "no effect on state" and stands for none. -/
def lineOps : ScriptLine → List HostOp
  | .loadIn s => [.loadIn s]
  | .loadKey k => [.loadKey k]
  | .reset => [.reset]
  | .command i => [.cmd (encode i)]
  | .cmd w => [.cmd w]
  | .moveOutIn => [.moveOutIn]
  | .expect _ _ => []

/-- The host operations of a script, in order. -/
def scriptOps (ls : List ScriptLine) : List HostOp := (ls.map lineOps).flatten

/-- The "encoding" of a script: "the sequence of its command words, one byte each, in order" (R80). -/
def scriptEncoding (ls : List ScriptLine) : List (BitVec 8) :=
  (scriptOps ls).filterMap fun op =>
    match op with
    | .cmd w => some w
    | _ => none

/-- The pseudo-operation Encrypt(P, K) as lines: `LOAD_IN P; LOAD_KEY K; ENCRYPT` (R81). -/
def scriptEncrypt (P K : Bytes) : List ScriptLine := [.loadIn P, .loadKey K, .command .encrypt]

/-- The pseudo-operations Decrypt(C, K) and Decrypt.L(C, K) as lines (R81). -/
def scriptDecrypt (l : Policy) (C K : Bytes) : List ScriptLine := [.loadIn C, .loadKey K, .command (.decrypt l)]

/-- The value an EXPECT line looks at (R80): one of the five things the host can observe (10_state.md R35). -/
def itemValue {bs : Nat} (item : ExpectItem) (e : Engine bs) : HostValue :=
  match item with
  | .STATUS => .word e.STATUS
  | .OUT => .bytes e.OUT
  | .OUT_LEN => .number (outLen e)
  | .IN_LEN => .number (inLen e)
  | .KEY_LEN => .number (keyLen e)

/-- The assertion of an EXPECT line holds; every other line asserts nothing. -/
def lineHolds {bs : Nat} (l : ScriptLine) (e : Engine bs) : Bool :=
  match l with
  | .expect item v => itemValue item e == v
  | _ => true

/-! ### The text of a script -/

def isBlank (ch : Char) : Bool := ch == ' ' || ch == '\t' || ch == '\r'

/-- `;` starts a comment to end of line. -/
def dropComment (s : List Char) : List Char := s.takeWhile (· != ';')

/-- The maximal runs of non-blank characters. -/
def wordsOf (s : List Char) : List (List Char) := (s.splitOnP isBlank).filter (fun w => !w.isEmpty)

def trimLeft (s : List Char) : List Char := s.dropWhile isBlank

def hexDigit (ch : Char) : Option Nat :=
  let n := ch.toNat
  if 48 ≤ n ∧ n ≤ 57 then some (n - 48)
  else if 65 ≤ n ∧ n ≤ 70 then some (n - 55)
  else if 97 ≤ n ∧ n ≤ 102 then some (n - 87)
  else none

/-- `hexbyte := two hexadecimal digits`. -/
def readHexByte : List Char → Option Byte
  | [a, b] =>
    match hexDigit a, hexDigit b with
    | some x, some y => some (BitVec.ofNat 8 (16 * x + y))
    | _, _ => none
  | _ => none

/-- `hexword := "0x" two hexadecimal digits`. -/
def readHexWord : List Char → Option (BitVec 8)
  | '0' :: 'x' :: ds => readHexByte ds
  | _ => none

/-- A length in decimal digits, at least one. -/
def readNumber (s : List Char) : Option Nat :=
  if s.isEmpty then none
  else s.foldl (fun acc ch =>
    match acc with
    | none => none
    | some n => if 48 ≤ ch.toNat ∧ ch.toNat ≤ 57 then some (10 * n + (ch.toNat - 48)) else none) (some 0)

/-- The ASCII code of a character (00_scope.md R13). -/
def asciiByte (ch : Char) : Option Byte := if ch.toNat < 128 then some (BitVec.ofNat 8 ch.toNat) else none

/-- `bytes := hexbyte* | '"' ascii* '"' | "[]"`. DESIGN CHOICE: the grammar does not say whether blanks stand between
hexbytes; here they must, so `41 42 43` is read and `414243` is refused (log 14). -/
def readBytes (s : List Char) : Option Bytes :=
  match trimLeft s with
  | '"' :: rest =>
    if ((rest.dropWhile (· != '"')).drop 1).all isBlank && rest.contains '"' then
      (rest.takeWhile (· != '"')).mapM asciiByte
    else none
  | body => if wordsOf body = ["[]".toList] then some [] else (wordsOf body).mapM readHexByte

def readItem (s : List Char) : Option ExpectItem :=
  if s = "STATUS".toList then some .STATUS
  else if s = "OUT".toList then some .OUT
  else if s = "OUT_LEN".toList then some .OUT_LEN
  else if s = "IN_LEN".toList then some .IN_LEN
  else if s = "KEY_LEN".toList then some .KEY_LEN
  else none

/-- The value of an EXPECT line, in the form of its item: a word for STATUS, bytes for OUT, a number for a length. -/
def readValue (item : ExpectItem) (s : List Char) : Option HostValue :=
  match item with
  | .STATUS =>
    match wordsOf s with
    | [w] => (readHexWord w).map .word
    | _ => none
  | .OUT => (readBytes s).map .bytes
  | .OUT_LEN | .IN_LEN | .KEY_LEN =>
    match wordsOf s with
    | [w] => (readNumber w).map .number
    | _ => none

/-- `check := "EXPECT" item "=" value`, after the word EXPECT. DESIGN CHOICE: blanks beside the `=` may stand or not
(log 14). -/
def readExpect (s : List Char) : Option ScriptLine :=
  match wordsOf (s.takeWhile (· != '=')) with
  | [w] =>
    match readItem w, s.dropWhile (· != '=') with
    | some item, '=' :: v => (readValue item v).map (.expect item)
    | _, _ => none
  | _ => none

/-- The commands by their mnemonics (R75, R80); the suffix `.L` sets bit `L`. -/
def readMnemonic (s : List Char) : Option Instr :=
  if s = "PAD".toList then some .pad
  else if s = "UNPAD".toList then some (.unpad .strict)
  else if s = "UNPAD.L".toList then some (.unpad .lenient)
  else if s = "ENCRYPT".toList then some .encrypt
  else if s = "DECRYPT".toList then some (.decrypt .strict)
  else if s = "DECRYPT.L".toList then some (.decrypt .lenient)
  else none

/-- A line with no argument: RESET, MOVE_OUT_IN or a mnemonic. -/
def readPlain (w : List Char) : Option ScriptLine :=
  if w = "RESET".toList then some .reset
  else if w = "MOVE_OUT_IN".toList then some .moveOutIn
  else (readMnemonic w).map .command

/-- One line: `none` if it is not of the grammar, `some none` if it is blank. DESIGN CHOICE: the grammar does not say
where blanks stand; here those before the keyword and at the end of the line are dropped, and the keyword ends at the
first blank after it, so ` LOAD_IN []` is read and `LOAD_IN[]` is refused (log 14). -/
def readLine (text : List Char) : Option (Option ScriptLine) :=
  let s := trimLeft (dropComment text)
  let w := s.takeWhile (fun ch => !isBlank ch)
  let rest := s.dropWhile (fun ch => !isBlank ch)
  if s.isEmpty then some none
  else if w = "LOAD_IN".toList then (readBytes rest).map fun b => some (.loadIn b)
  else if w = "LOAD_KEY".toList then (readBytes rest).map fun b => some (.loadKey b)
  else if w = "EXPECT".toList then (readExpect rest).map some
  else if w = "CMD".toList then
    match wordsOf rest with
    | [x] => (readHexWord x).map fun v => some (.cmd v)
    | _ => none
  else if rest.all isBlank then (readPlain w).map some
  else none

/-- A script: its lines in order, blank ones ignored. -/
def readScript (text : List Char) : Option (List ScriptLine) :=
  ((text.splitOnP (· == '\n')).mapM readLine).map fun ls => ls.filterMap id

end Sys2Proof.Machine
end

