-- ==== Sys2Proof/Safety.lean ====
section
/-! DEFINITION. What claims are stated in: the buffers within their capacities, the idle engine, the reachable status
words, the invariant of the machine, and what the host can observe. -/

namespace Sys2Proof

namespace Machine

/-- The four byte-addressed spaces are within their capacities (20_memory.md R50, 10_state.md R20, R21, R22, R31). -/
abbrev Memory.wf (c : Config) (e : Engine c.BS) : Prop :=
  e.IN.length ≤ c.MAXLEN ∧ e.KEY.length ≤ c.KEYMAX ∧ e.OUT.length ≤ c.MAXLEN ∧ e.PBUF.length ≤ c.MAXLEN

/-- The transient slots hold their idle values (10_state.md R33): "whenever the engine is idle". -/
abbrev Engine.Idle {bs : Nat} (e : Engine bs) : Prop :=
  e.CHAIN = zeroBlock bs ∧ e.WORK = zeroBlock bs ∧ e.IDX = 0 ∧ e.KS = none ∧ e.PBUF = []

/-- "The reachable values are exactly" these eight (10_state.md R25). -/
def reachableStatus : List (BitVec 8) := [0x00#8, 0x10#8, 0x18#8, 0x11#8, 0x12#8, 0x13#8, 0x14#8, 0x15#8]

/-- The engine between two host operations. -/
abbrev Engine.Inv (c : Config) (e : Engine c.BS) : Prop :=
  Memory.wf c e ∧ e.Idle ∧ e.STATUS ∈ reachableStatus

/-- The invariant of the machine. -/
abbrev State.Inv (s : State) : Prop := Engine.Inv Config.machine s.engine

/-- The engine after a command (10_state.md R33, 43_primitive_and_host_interface.md R152): IN as it was, KEY, OUT and
STATUS as given, every transient slot idle. -/
def Engine.settled {bs : Nat} (e : Engine bs) (key out : Bytes) (status : BitVec 8) : Engine bs where
  IN := e.IN
  KEY := key
  OUT := out
  STATUS := status
  CHAIN := zeroBlock bs
  WORK := zeroBlock bs
  IDX := 0
  KS := none
  PBUF := []

/-- The whole of what the host can observe of an engine (10_state.md R35). -/
def Engine.observable {bs : Nat} (e : Engine bs) : BitVec 8 × Bytes × Nat × Nat × Nat :=
  (e.STATUS, e.OUT, outLen e, inLen e, keyLen e)

/-- `k` steps of the machine from `s` meet neither a fault nor a refusal. -/
def SafeRun (k : Nat) (s : State) : Prop :=
  match k with
  | 0 => True
  | k + 1 => ∃ t, step s = .next t ∧ SafeRun k t

end Machine

end Sys2Proof
end

