-- ==== Sys2Proof/Certificates/Slice0/Obligations.lean ====
section
/-! DEFINITION. The statements for the provers. A statement over `c : Config` holds for every well-formed configuration
(every block size, capacity and primitive); a statement over `State`, `exec` or `step` is about this hardware
(`Config.machine`). `Engine.settled` is the whole engine after a command, so an equation with it is the result and the
frame at once: IN as before, KEY, OUT and STATUS as written out, every transient slot idle. -/

open Sys2Proof Sys2Proof.Machine

/-! ### Encoding -/

/-- Decode gives every encoded command back, alone or first in a byte string, and leaves the rest of the string
(30_encoding.md R75, R79). -/
def Obligations.EncodedCommandsDecodeBack : Prop :=
  ∀ (i : Instr) (rest : Bytes), decode (encode i) = .ok i ∧ decodeBytes (encode i :: rest) = some (.ok i, rest)

/-- Decode is the function of 30_encoding.md R78, clause by clause. -/
def Obligations.DecodeIsTheTotalFunctionOfTheSpec : Prop :=
  ∀ w : BitVec 8,
    (w.extractLsb' 3 5 ≠ 0#5 → ∃ r, decode w = .error r) ∧
    (w.extractLsb' 3 5 = 0#5 → w.getLsbD 2 = true → (w.extractLsb' 0 2 = 0#2 ∨ w.extractLsb' 0 2 = 2#2) →
      ∃ r, decode w = .error r) ∧
    (w.extractLsb' 3 5 = 0#5 → w.getLsbD 2 = false → w.extractLsb' 0 2 = 0#2 → decode w = .ok .pad) ∧
    (w.extractLsb' 3 5 = 0#5 → w.extractLsb' 0 2 = 1#2 →
      decode w = .ok (.unpad (if w.getLsbD 2 then .lenient else .strict))) ∧
    (w.extractLsb' 3 5 = 0#5 → w.getLsbD 2 = false → w.extractLsb' 0 2 = 2#2 → decode w = .ok .encrypt) ∧
    (w.extractLsb' 3 5 = 0#5 → w.extractLsb' 0 2 = 3#2 →
      decode w = .ok (.decrypt (if w.getLsbD 2 then .lenient else .strict)))

/-- The complete map (30_encoding.md R75): six legal words, each with its command, as matched by the table's match and
mask; the 250 others are illegal (R76). -/
def Obligations.SixLegalWordsAndTheOthersIllegal : Prop :=
  (∀ (w : BitVec 8) (i : Instr), decode w = .ok i ↔
    (w, i) ∈ [(0x00#8, Instr.pad), (0x01#8, .unpad .strict), (0x05#8, .unpad .lenient), (0x02#8, .encrypt),
      (0x03#8, .decrypt .strict), (0x07#8, .decrypt .lenient)]) ∧
  (∀ w : BitVec 8,
    (w &&& 0xFF#8 = 0x00#8 ↔ decode w = .ok .pad) ∧
    (w &&& 0xFB#8 = 0x01#8 ↔ ∃ l, decode w = .ok (.unpad l)) ∧
    (w &&& 0xFF#8 = 0x02#8 ↔ decode w = .ok .encrypt) ∧
    (w &&& 0xFB#8 = 0x03#8 ↔ ∃ l, decode w = .ok (.decrypt l))) ∧
  ((List.range 256).filter fun n => (decode (BitVec.ofNat 8 n)).toOption.isNone).length = 250

/-- A few words written out bit by bit from 30_encoding.md R75 and 95_test_vectors.md section 8 decode to what they stand
for. -/
def Obligations.WrittenOutWordsDecodeAsTheSpecSays : Prop :=
  decode 0b00000000#8 = .ok .pad ∧
  decode 0b00000001#8 = .ok (.unpad .strict) ∧
  decode 0b00000101#8 = .ok (.unpad .lenient) ∧
  decode 0b00000010#8 = .ok .encrypt ∧
  decode 0b00000011#8 = .ok (.decrypt .strict) ∧
  decode 0b00000111#8 = .ok (.decrypt .lenient) ∧
  decode 0b00000100#8 = .error .policyWithoutCheck ∧
  decode 0b00000110#8 = .error .policyWithoutCheck ∧
  decode 0b00001000#8 = .error .reservedBits ∧
  decode 0b10000000#8 = .error .reservedBits

/-! ### Steps of the machine -/

/-- A step whose next host operation is H_CMD of a legal word runs exactly that command, on the state with the operation
taken off the host's list (43_primitive_and_host_interface.md R152). -/
def Obligations.StepRunsTheDecodedCommand : Prop :=
  ∀ (s : State) (w : BitVec 8) (rest : List HostOp) (i : Instr),
    s.script = .cmd w :: rest → decode w = .ok i → step s = exec i { s with script := rest }

/-- A step with host operations pending takes the first of them and performs it, whole (20_memory.md R59). That the host's
operations stand in a list that a step takes from is the model's own convention (log 4). -/
def Obligations.StepPerformsTheNextHostOperation : Prop :=
  ∀ (s : State) (op : HostOp) (rest : List HostOp), s.script = op :: rest → step s = hostOp op { s with script := rest }

/-- The word placed by `withFetchWord` is the one the very next step runs, and the one the decoder reads from the table's
word. How a program comes to run is the model's own convention (log 4, log 15). -/
def Obligations.PlacedWordRunsNext : Prop :=
  ∀ (s : State) (w : Nat) (i : Instr), w < 256 → decode (BitVec.ofNat 8 w) = .ok i →
    step (s.withFetchWord 8 w) = exec i s ∧ decodeTableWord 8 w = some i

/-- An illegal word is a command of its own (60_exceptions.md R174, 30_encoding.md R76): OUT emptied, clean-up that leaves
KEY, STATUS 0x15, IN and KEY untouched. That no call of the primitive is made is read off the model's list of calls
(log 18). -/
def Obligations.IllegalWordIsReportedAndTouchesNothingElse : Prop :=
  ∀ (s : State) (w : BitVec 8) (r : IllegalWord), decode w = .error r →
    hostOp (.cmd w) s = .next { s with engine := s.engine.settled s.engine.KEY [] 0x15#8 } ∧
    callsOf Config.machine none s.engine = []

/-- With no host operation pending a step changes nothing (60_exceptions.md R184: "idle keeps all host-visible state").
That a step with nothing pending is an idle step is the model's reading (log 5). -/
def Obligations.IdleStepKeepsTheState : Prop :=
  ∀ s : State, s.script = [] → step s = .next s

/-- H_LOAD_IN replaces the whole of IN and changes nothing else; beyond MAXLEN it is refused, not truncated
(43_primitive_and_host_interface.md R150). -/
def Obligations.LoadInReplacesInAndNothingElse : Prop :=
  ∀ (s : State) (b : Bytes),
    (b.length ≤ Config.machine.MAXLEN →
      hostOp (.loadIn b) s = .next { s with engine := { s.engine with IN := b } }) ∧
    (Config.machine.MAXLEN < b.length → hostOp (.loadIn b) s = .refused .loadInBeyondCapacity)

/-- H_LOAD_KEY replaces the whole of KEY and changes nothing else; beyond KEYMAX it is refused
(43_primitive_and_host_interface.md R151). -/
def Obligations.LoadKeyReplacesKeyAndNothingElse : Prop :=
  ∀ (s : State) (k : Bytes),
    (k.length ≤ Config.machine.KEYMAX →
      hostOp (.loadKey k) s = .next { s with engine := { s.engine with KEY := k } }) ∧
    (Config.machine.KEYMAX < k.length → hostOp (.loadKey k) s = .refused .loadKeyBeyondCapacity)

/-- The host reads return STATUS, all of OUT, and the three lengths, and have no side effect on the engine
(43_primitive_and_host_interface.md R153, R154, R155). That the value goes to the front of `seen` is the model's
(log 4). -/
def Obligations.HostReadsReturnTheirRegisterAndChangeNothing : Prop :=
  ∀ s : State,
    hostOp .readStatus s = .next { s with seen := .word s.engine.STATUS :: s.seen } ∧
    hostOp .readOut s = .next { s with seen := .bytes s.engine.OUT :: s.seen } ∧
    hostOp .readOutLen s = .next { s with seen := .number s.engine.OUT.length :: s.seen } ∧
    hostOp .readInLen s = .next { s with seen := .number s.engine.IN.length :: s.seen } ∧
    hostOp .readKeyLen s = .next { s with seen := .number s.engine.KEY.length :: s.seen }

/-- Reset, by H_RESET in any state and at power-on, puts every slot of the engine at the value of the table of
10_state.md R36. -/
def Obligations.ResetPutsEverySlotAtItsResetValue : Prop :=
  ∀ s : State, ∃ t, hostOp .reset s = .next t ∧ t.engine = State.reset.engine ∧
    t.engine.IN = [] ∧ t.engine.KEY = [] ∧ t.engine.OUT = [] ∧ t.engine.STATUS = 0x00#8 ∧
    t.engine.CHAIN.1 = List.replicate Config.machine.BS 0x00#8 ∧
    t.engine.WORK.1 = List.replicate Config.machine.BS 0x00#8 ∧
    t.engine.IDX = 0 ∧ t.engine.KS = none ∧ t.engine.PBUF = []

/-- MOVE_OUT_IN is H_READ_OUT and then H_LOAD_IN of what it returned (43_primitive_and_host_interface.md R162): two
transitions (log 7), after which IN is OUT and OUT keeps its value. The hypothesis is part of the invariant. -/
def Obligations.MoveOutInReadsOutAndThenLoadsIt : Prop :=
  ∀ (s : State) (rest : List HostOp), s.script = .moveOutIn :: rest →
    s.engine.OUT.length ≤ Config.machine.MAXLEN →
      ∃ t, step s = .next t ∧ t.engine = s.engine ∧
        step t = .next { engine := { s.engine with IN := s.engine.OUT }, script := rest,
                         seen := .bytes s.engine.OUT :: s.seen }

/-- What each host operation may write (10_state.md R20 to R31): IN by H_LOAD_IN and reset, KEY by H_LOAD_KEY, reset and a
key-consuming command, OUT, STATUS and the transient slots by a command and reset. -/
def Obligations.EachRegisterIsWrittenOnlyByItsWriters : Prop :=
  ∀ (s t : State) (op : HostOp) (rest : List HostOp), s.script = op :: rest → step s = .next t →
    ((∀ b, op ≠ .loadIn b) → op ≠ .reset → t.engine.IN = s.engine.IN) ∧
    ((∀ k, op ≠ .loadKey k) → op ≠ .reset →
      (∀ w, op = .cmd w → decode w ≠ .ok .encrypt ∧ ∀ l, decode w ≠ .ok (.decrypt l)) →
      t.engine.KEY = s.engine.KEY) ∧
    ((∀ w, op ≠ .cmd w) → op ≠ .reset →
      t.engine.OUT = s.engine.OUT ∧ t.engine.STATUS = s.engine.STATUS ∧ t.engine.CHAIN = s.engine.CHAIN ∧
      t.engine.WORK = s.engine.WORK ∧ t.engine.IDX = s.engine.IDX ∧ t.engine.KS = s.engine.KS ∧
      t.engine.PBUF = s.engine.PBUF)

/-- The host's side: a step takes one operation off the list (MOVE_OUT_IN puts the load it expands to in its place) and
adds at most one value to what has been seen. The host's side is the model's own (log 4, log 7, log 13). -/
def Obligations.StepConsumesOneHostOperation : Prop :=
  ∀ (s t : State) (op : HostOp) (rest : List HostOp), s.script = op :: rest → step s = .next t →
    t.script = (if op = .moveOutIn then .loadIn s.engine.OUT :: rest else rest) ∧
    ∃ l, l.length ≤ 1 ∧ t.seen = l ++ s.seen

/-! ### The commands on the machine -/

/-- PAD (41_padding_codec.md R96), for every state: `Pad(IN)` with STATUS 0x10, or nothing with STATUS 0x14 exactly where
the padded length does not fit, which within capacity is `|IN| = MAXLEN`. IN, KEY and the host's side are unchanged. -/
def Obligations.PadDeliversThePaddedBufferOrCapacityExceeded : Prop :=
  encode .pad = 0x00#8 ∧
  ∀ s : State,
    let n := s.engine.IN.length
    let k := Config.machine.BS - n % Config.machine.BS
    exec .pad s = .next { s with
      engine :=
        if Config.machine.MAXLEN < n + k then s.engine.settled s.engine.KEY [] 0x14#8
        else s.engine.settled s.engine.KEY (s.engine.IN ++ List.replicate k (BitVec.ofNat 8 k)) 0x10#8 } ∧
    (n ≤ Config.machine.MAXLEN → (Config.machine.MAXLEN < n + k ↔ n = Config.machine.MAXLEN))

/-- UNPAD and UNPAD.L (41_padding_codec.md R97), for every state and both policies: InvalidInputLength for a length that
is no positive multiple of BS; else, with UnpadCheck valid, the buffer without its footer and STATUS 0x18; else STATUS
0x12 with nothing (strict) or the whole buffer (lenient). IN, KEY and the host's side are unchanged. -/
def Obligations.UnpadDeliversWhatStripGives : Prop :=
  encode (.unpad .strict) = 0x01#8 ∧ encode (.unpad .lenient) = 0x05#8 ∧
  ∀ (l : Policy) (s : State),
    let r := unpadCheck Config.machine.BS s.engine.IN
    exec (.unpad l) s = .next { s with
      engine :=
        if s.engine.IN.length = 0 ∨ s.engine.IN.length % Config.machine.BS ≠ 0 then
          s.engine.settled s.engine.KEY [] 0x11#8
        else if r.2 = true then s.engine.settled s.engine.KEY (s.engine.IN.take r.1) 0x18#8
        else s.engine.settled s.engine.KEY (if l = .lenient then s.engine.IN else []) 0x12#8 }

/-- ENCRYPT (42_cbc_engine.md R117), for every state: CapacityExceeded first, which within capacity is `|IN| = MAXLEN`;
then KeyScheduleError; else `OUT = CbcEnc(SetKey(KEY), Pad(IN))`, of `(|IN| div BS + 1) * BS` bytes. KEY is emptied on
every outcome; IN and the host's side are unchanged. -/
def Obligations.EncryptDeliversCbcEncOfThePaddedInput : Prop :=
  encode .encrypt = 0x02#8 ∧
  ∀ s : State,
    let n := s.engine.IN.length
    exec .encrypt s = .next { s with
      engine :=
        if Config.machine.MAXLEN < n + padCount Config.machine.BS n then s.engine.settled [] [] 0x14#8
        else
          match Config.machine.prim.setKey s.engine.KEY with
          | none => s.engine.settled [] [] 0x13#8
          | some ks =>
            s.engine.settled [] (cbcEnc Config.machine ks (padBytes Config.machine.BS s.engine.IN)) 0x10#8 } ∧
    (∀ ks, (cbcEnc Config.machine ks (padBytes Config.machine.BS s.engine.IN)).length =
      (n / Config.machine.BS + 1) * Config.machine.BS) ∧
    (n ≤ Config.machine.MAXLEN →
      (Config.machine.MAXLEN < n + padCount Config.machine.BS n ↔ n = Config.machine.MAXLEN))

/-- DECRYPT and DECRYPT.L (42_cbc_engine.md R118), for every state and both policies: InvalidInputLength first, then
KeyScheduleError; else with `pp = CbcDec(SetKey(KEY), IN)`: if UnpadCheck of `pp` is valid, `pp` without its footer, of
`|IN| - BS` to `|IN| - 1` bytes, and STATUS 0x18; if not, STATUS 0x12 with nothing (strict) or all of `pp` (lenient).
KEY is emptied on every outcome; IN and the host's side are unchanged. -/
def Obligations.DecryptDeliversWhatStripGivesOfCbcDec : Prop :=
  encode (.decrypt .strict) = 0x03#8 ∧ encode (.decrypt .lenient) = 0x07#8 ∧
  ∀ (l : Policy) (s : State),
    exec (.decrypt l) s = .next { s with
      engine :=
        if s.engine.IN.length = 0 ∨ s.engine.IN.length % Config.machine.BS ≠ 0 then s.engine.settled [] [] 0x11#8
        else
          match Config.machine.prim.setKey s.engine.KEY with
          | none => s.engine.settled [] [] 0x13#8
          | some ks =>
            let pp := cbcDec Config.machine ks s.engine.IN
            if (unpadCheck Config.machine.BS pp).2 = true then
              s.engine.settled [] (pp.take (unpadCheck Config.machine.BS pp).1) 0x18#8
            else s.engine.settled [] (if l = .lenient then pp else []) 0x12#8 } ∧
    (∀ ks, s.engine.IN.length % Config.machine.BS = 0 →
      (unpadCheck Config.machine.BS (cbcDec Config.machine ks s.engine.IN)).2 = true →
      let n := (unpadCheck Config.machine.BS (cbcDec Config.machine ks s.engine.IN)).1
      ((cbcDec Config.machine ks s.engine.IN).take n).length = n ∧
        s.engine.IN.length - Config.machine.BS ≤ n ∧ n ≤ s.engine.IN.length - 1)

/-- The machine's commands and steps are the engine's of `Config.machine`, so what is stated of every configuration is
stated of the machine. MOVE_OUT_IN, two steps, is left out here. -/
def Obligations.MachineIsTheEngineOfItsConfiguration : Prop :=
  (∀ (i : Instr) (s : State), exec i s = .next { s with engine := runCmd Config.machine i s.engine }) ∧
  (∀ (s : State) (op : HostOp) (rest : List HostOp), s.script = op :: rest → op ≠ .moveOutIn →
    match opOnEngine Config.machine op s.engine with
    | some e => ∃ t, step s = .next t ∧ t.engine = e
    | none => ∃ r, step s = .refused r)

/-- Commands straight after reset (70_reset_and_hazards.md R202): PAD gives one padding Block, UNPAD and DECRYPT give
InvalidInputLength, ENCRYPT hands the empty key to SetKey and gives KeyScheduleError or the encryption of one padding
Block under the empty key. -/
def Obligations.CommandsStraightAfterReset : Prop :=
  exec .pad State.reset = .next { State.reset with
    engine := State.reset.engine.settled [] (List.replicate 8 0x08#8) 0x10#8 } ∧
  (∀ l, exec (.unpad l) State.reset = .next { State.reset with
    engine := State.reset.engine.settled [] [] 0x11#8 }) ∧
  (∀ l, exec (.decrypt l) State.reset = .next { State.reset with
    engine := State.reset.engine.settled [] [] 0x11#8 }) ∧
  exec .encrypt State.reset = .next { State.reset with
    engine :=
      match Config.machine.prim.setKey [] with
      | none => State.reset.engine.settled [] [] 0x13#8
      | some ks => State.reset.engine.settled []
          (encryptBlock Config.machine ks ⟨List.replicate 8 0x08#8, rfl⟩).1 0x10#8 }

/-! ### The padding codec -/

/-- PadCount (41_padding_codec.md R90): the formula, its range, when it is a whole Block, that it fits one byte, and the
rule's own examples. -/
def Obligations.PadCountIsOneToBlocksize : Prop :=
  (∀ bs L : Nat, 1 ≤ bs → padCount bs L = bs - L % bs ∧ 1 ≤ padCount bs L ∧ padCount bs L ≤ bs ∧
    (padCount bs L = bs ↔ L % bs = 0) ∧ (bs ≤ 255 → (countByte (padCount bs L)).toNat = padCount bs L)) ∧
  padCount 8 0 = 8 ∧ padCount 8 5 = 3 ∧ padCount 8 7 = 1 ∧ padCount 8 8 = 8 ∧ padCount 8 9 = 7

/-- The laws of Pad (41_padding_codec.md R92, with the definition of R91), for every byte sequence. -/
def Obligations.PaddedBufferLaws : Prop :=
  ∀ (c : Config) (s : Bytes),
    padBytes c.BS s = s ++ List.replicate (padCount c.BS s.length) (BitVec.ofNat 8 (padCount c.BS s.length)) ∧
    (padBytes c.BS s).length = s.length + padCount c.BS s.length ∧
    (padBytes c.BS s).length % c.BS = 0 ∧
    (padBytes c.BS s).length = (s.length / c.BS + 1) * c.BS ∧
    blockCount c.BS (padBytes c.BS s) = s.length / c.BS + 1 ∧
    s.length < (padBytes c.BS s).length ∧ (padBytes c.BS s).length ≤ s.length + c.BS ∧
    (s.length % c.BS = 0 → (padBytes c.BS s).length = s.length + c.BS) ∧
    padBytes c.BS [] = List.replicate c.BS (BitVec.ofNat 8 c.BS) ∧
    (padBytes c.BS s).take s.length = s ∧
    (∀ k, s.length ≤ k → k < (padBytes c.BS s).length →
      (padBytes c.BS s)[k]? = some (BitVec.ofNat 8 (padCount c.BS s.length))) ∧
    (∃ x, (padBytes c.BS s).getLast? = some x ∧ x.toNat = padCount c.BS s.length ∧ 1 ≤ x.toNat ∧ x.toNat ≤ c.BS) ∧
    (∀ t, padBytes c.BS s = padBytes c.BS t → s = t)

/-- UnpadCheck (41_padding_codec.md R93), on every buffer it is defined for, with the buffer of sixteen 0x10 bytes that
the rule rejects. -/
def Obligations.UnpadCheckAcceptsExactlyAFooter : Prop :=
  (∀ (c : Config) (b : Bytes) (x : Byte), b.length % c.BS = 0 → b.getLast? = some x →
    unpadCheck c.BS b =
      if 1 ≤ x.toNat ∧ x.toNat ≤ c.BS ∧ ∀ j < x.toNat, b[b.length - 1 - j]? = some x then
        (b.length - x.toNat, true)
      else (b.length, false)) ∧
  unpadCheck 8 (List.replicate 16 0x10#8) = (16, false)

/-- Strip (41_padding_codec.md R94): the stripped buffer with OK, or PaddingInvalid with the whole buffer under the
lenient policy and nothing under the strict one. On a buffer off the domain of R93 the test is the model's (log 8). -/
def Obligations.StripDeliversByPolicy : Prop :=
  ∀ (bs : Nat) (b : Bytes) (l : Policy),
    ((unpadCheck bs b).2 = true → strip bs b l = (.ok, b.take (unpadCheck bs b).1)) ∧
    ((unpadCheck bs b).2 = false → strip bs b .lenient = (.paddingInvalid, b)) ∧
    ((unpadCheck bs b).2 = false → strip bs b .strict = (.paddingInvalid, []))

/-- The laws of UnpadCheck (41_padding_codec.md R95): (a) it inverts Pad, (b) a valid strip removes one byte to one
Block, (c) a valid strip is undone by Pad exactly where the count removed is PadCount of what stays, which holds on every
block-aligned buffer, and the rule's own example, (d) it reads the length and the last BS bytes only, and the last byte
alone where that is outside 1..BS. -/
def Obligations.UnpadCheckInvertsPad : Prop :=
  ∀ c : Config,
    (∀ (s : Bytes) (l : Policy), unpadCheck c.BS (padBytes c.BS s) = (s.length, true) ∧
      strip c.BS (padBytes c.BS s) l = (.ok, s)) ∧
    (∀ b : Bytes, (unpadCheck c.BS b).2 = true → (unpadCheck c.BS b).1 < b.length ∧
      1 ≤ b.length - (unpadCheck c.BS b).1 ∧ b.length - (unpadCheck c.BS b).1 ≤ c.BS) ∧
    (∀ b : Bytes, (unpadCheck c.BS b).2 = true →
      let n := (unpadCheck c.BS b).1
      (padBytes c.BS (b.take n) = b ↔ b.length - n = padCount c.BS n) ∧
      (b.length - n = padCount c.BS n ↔ n % c.BS = c.BS - (b.length - n)) ∧
      (b.length % c.BS = 0 → padBytes c.BS (b.take n) = b)) ∧
    unpadCheck 8 [0x41#8, 0x42#8, 0x43#8, 0x44#8, 0x45#8, 0x03#8, 0x03#8, 0x01#8] = (7, true) ∧
    (∀ b b' : Bytes, b.length = b'.length → b.drop (b.length - c.BS) = b'.drop (b'.length - c.BS) →
      unpadCheck c.BS b = unpadCheck c.BS b') ∧
    (∀ (b : Bytes) (x : Byte), b.getLast? = some x → x.toNat < 1 ∨ c.BS < x.toNat →
      unpadCheck c.BS b = (b.length, false))

/-- PAD, MOVE_OUT_IN, UNPAD (or UNPAD.L) returns the original IN in OUT with STATUS 0x18, for every input PAD accepts
(41_padding_codec.md R98). -/
def Obligations.PadThenUnpadRestoresTheInput : Prop :=
  ∀ (c : Config) (e : Engine c.BS) (l : Policy), e.IN.length + padCount c.BS e.IN.length ≤ c.MAXLEN →
    ∃ e', runOps c [.cmd 0x00#8, .moveOutIn, .cmd (encode (.unpad l))] e = some e' ∧
      e'.OUT = e.IN ∧ e'.STATUS = 0x18#8 ∧ e'.KEY = e.KEY

/-! ### The chaining engine -/

/-- EncryptBlock and DecryptBlock undo each other under every schedule
(43_primitive_and_host_interface.md R142). -/
def Obligations.DecryptBlockInvertsEncryptBlock : Prop :=
  ∀ (c : Config) (ks : KeySchedule) (x : Block c.BS),
    decryptBlock c ks (encryptBlock c ks x) = x ∧ encryptBlock c ks (decryptBlock c ks x) = x

/-- XorBlock (42_cbc_engine.md R110): byte lanes, the laws, and the rule's example. -/
def Obligations.XorBlockIsBytewiseWithItsLaws : Prop :=
  (∀ (bs : Nat) (a b : Block bs),
    (∀ (j : Nat) (x y : Byte), a.1[j]? = some x → b.1[j]? = some y → (xorBlock a b).1[j]? = some (x ^^^ y)) ∧
    xorBlock a b = xorBlock b a ∧ xorBlock (xorBlock a b) b = a ∧ xorBlock a (zeroBlock bs) = a) ∧
  (xorBlock (bs := 8) ⟨List.replicate 8 0x08#8, rfl⟩
    ⟨[0x41#8, 0x42#8, 0x43#8, 0x44#8, 0x45#8, 0x46#8, 0x47#8, 0x48#8], rfl⟩).1 =
    [0x49#8, 0x4A#8, 0x4B#8, 0x4C#8, 0x4D#8, 0x4E#8, 0x4F#8, 0x40#8]

/-- EncStep (42_cbc_engine.md R112), where it applies: the slots it writes, and no other. -/
def Obligations.EncStepProcessesOneBlock : Prop :=
  ∀ (c : Config) (e : Engine c.BS) (ks : KeySchedule), e.KS = some ks → e.IDX < e.PBUF.length / c.BS →
    ∃ p : Block c.BS, p.1 = (e.PBUF.drop (e.IDX * c.BS)).take c.BS ∧
      encStep c e = some { e with
        WORK := xorBlock p e.CHAIN
        CHAIN := encryptBlock c ks (xorBlock p e.CHAIN)
        OUT := e.OUT ++ (encryptBlock c ks (xorBlock p e.CHAIN)).1
        IDX := e.IDX + 1 }

/-- DecStep (42_cbc_engine.md R114), where it applies: the slots it writes, and no other; CHAIN becomes the input
ciphertext Block. -/
def Obligations.DecStepProcessesOneBlock : Prop :=
  ∀ (c : Config) (e : Engine c.BS) (ks : KeySchedule), e.KS = some ks → e.IDX < e.IN.length / c.BS →
    ∃ ct : Block c.BS, ct.1 = (e.IN.drop (e.IDX * c.BS)).take c.BS ∧
      decStep c e = some { e with
        WORK := decryptBlock c ks ct
        PBUF := e.PBUF ++ (xorBlock (decryptBlock c ks ct) e.CHAIN).1
        CHAIN := ct
        IDX := e.IDX + 1 }

/-- CbcEnc (42_cbc_engine.md R113): its length, the recurrence `C_i = E(ks, XorBlock(P_i, C_{i-1}))` from
`C_{-1} = IV`, `C_0 = E(ks, P_0)`, and that it is what the EncSteps append. -/
def Obligations.CbcEncIsTheRecurrenceTheStepsCompute : Prop :=
  ∀ (c : Config) (ks : KeySchedule) (p : Bytes), p.length % c.BS = 0 →
    (cbcEnc c ks p).length = p.length ∧
    (∀ P, blk c.BS p 0 = some P → blk c.BS (cbcEnc c ks p) 0 = some (encryptBlock c ks (xorBlock P (zeroBlock c.BS))) ∧
      blk c.BS (cbcEnc c ks p) 0 = some (encryptBlock c ks P)) ∧
    (∀ i P, blk c.BS p (i + 1) = some P → ∃ C, blk c.BS (cbcEnc c ks p) i = some C ∧
      blk c.BS (cbcEnc c ks p) (i + 1) = some (encryptBlock c ks (xorBlock P C))) ∧
    (∀ e : Engine c.BS, e.PBUF = p → e.KS = some ks → e.CHAIN = zeroBlock c.BS → e.IDX = 0 → e.OUT = [] →
      (encLoop c e).OUT = cbcEnc c ks p ∧ (encLoop c e).IDX = p.length / c.BS)

/-- CbcDec (42_cbc_engine.md R115): its length, `P_i = XorBlock(D(ks, C_i), C_{i-1})` from `C_{-1} = IV`, and that it is
what the DecSteps append. -/
def Obligations.CbcDecIsTheRecurrenceTheStepsCompute : Prop :=
  ∀ (c : Config) (ks : KeySchedule) (ct : Bytes), ct.length % c.BS = 0 →
    (cbcDec c ks ct).length = ct.length ∧
    (∀ C, blk c.BS ct 0 = some C →
      blk c.BS (cbcDec c ks ct) 0 = some (xorBlock (decryptBlock c ks C) (zeroBlock c.BS))) ∧
    (∀ i C, blk c.BS ct (i + 1) = some C → ∃ Q, blk c.BS ct i = some Q ∧
      blk c.BS (cbcDec c ks ct) (i + 1) = some (xorBlock (decryptBlock c ks C) Q)) ∧
    (∀ e : Engine c.BS, e.IN = ct → e.KS = some ks → e.CHAIN = zeroBlock c.BS → e.IDX = 0 → e.PBUF = [] →
      (decLoop c e).PBUF = cbcDec c ks ct ∧ (decLoop c e).IDX = ct.length / c.BS)

/-- The stepwise view (10_state.md R29, 42_cbc_engine.md R128): the block loop of ENCRYPT takes exactly
`|IN| div BS + 1` steps and that of DECRYPT `|IN| div BS`; after its k-th step IDX is k; and the loop ends with the last
of them. -/
def Obligations.BlockLoopsCountUpToTheBlockCount : Prop :=
  ∀ (c : Config) (ks : KeySchedule) (e : Engine c.BS),
    let te := stepTrace (encStep c) (blockCount c.BS (encStart c ks e).PBUF) (encStart c ks e)
    let td := stepTrace (decStep c) (blockCount c.BS e.IN) (decStart c ks e)
    te.length = e.IN.length / c.BS + 1 ∧ (∀ k t, te[k]? = some t → t.IDX = k + 1) ∧
      te.getLast? = some (encLoop c (encStart c ks e)) ∧
    td.length = e.IN.length / c.BS ∧ (∀ k t, td[k]? = some t → t.IDX = k + 1) ∧
      (c.BS ≤ e.IN.length → td.getLast? = some (decLoop c (decStart c ks e)))

/-- CbcDec inverts CbcEnc and the other way round (42_cbc_engine.md R119), for every primitive that meets the
contract. -/
def Obligations.CbcDecAndCbcEncAreInverse : Prop :=
  ∀ (c : Config) (ks : KeySchedule) (p : Bytes), p.length % c.BS = 0 →
    cbcDec c ks (cbcEnc c ks p) = p ∧ cbcEnc c ks (cbcDec c ks p) = p

/-- The round trip (42_cbc_engine.md R120): the script LOAD_IN P; LOAD_KEY K; ENCRYPT; MOVE_OUT_IN; LOAD_KEY K; DECRYPT
(or DECRYPT.L) ends with OUT = P, OUT_LEN = |P|, STATUS = 0x18, from any engine, for every plaintext below capacity and
every key that can be staged and that SetKey accepts. -/
def Obligations.EncryptThenDecryptRestoresThePlaintext : Prop :=
  ∀ (c : Config) (e : Engine c.BS) (P K : Bytes) (ks : KeySchedule) (l : Policy),
    P.length < c.MAXLEN → K.length ≤ c.KEYMAX → c.prim.setKey K = some ks →
      ∃ e', runOps c [.loadIn P, .loadKey K, .cmd (encode .encrypt), .moveOutIn, .loadKey K,
          .cmd (encode (.decrypt l))] e = some e' ∧
        e'.OUT = P ∧ outLen e' = P.length ∧ e'.STATUS = 0x18#8

/-- The lengths of ciphertexts (42_cbc_engine.md R121), for every plaintext and whatever the key. -/
def Obligations.CiphertextLengthDependsOnThePlaintextLengthOnly : Prop :=
  ∀ (c : Config) (e : Engine c.BS), (runCmd c .encrypt e).STATUS = 0x10#8 →
    let n := (runCmd c .encrypt e).OUT.length
    n = (e.IN.length / c.BS + 1) * c.BS ∧ n = e.IN.length + padCount c.BS e.IN.length ∧ e.IN.length < n ∧
      n % c.BS = 0 ∧ c.BS ≤ n ∧ (e.IN.length % c.BS = 0 → n = e.IN.length + c.BS)

/-- Determinism (42_cbc_engine.md R122): the whole engine after H_CMD(w), hidden slots included, is determined by w, IN
and KEY; nothing else of the state before matters. -/
def Obligations.CommandsDependOnWordInAndKeyOnly : Prop :=
  ∀ (c : Config) (w : BitVec 8) (e e' : Engine c.BS), e.IN = e'.IN → e.KEY = e'.KEY →
    cmdWord c w e = cmdWord c w e'

/-- The leading-blocks property (42_cbc_engine.md R123): padded plaintexts that agree on their first m Blocks have the
same first m ciphertext Blocks, in particular plaintexts that share their first m*BS bytes. -/
def Obligations.EqualLeadingPlaintextGivesEqualLeadingCiphertext : Prop :=
  ∀ (c : Config) (ks : KeySchedule) (P P' : Bytes) (m : Nat),
    ((∀ i < m, blk c.BS (padBytes c.BS P) i = blk c.BS (padBytes c.BS P') i) →
      ∀ i < m, blk c.BS (cbcEnc c ks (padBytes c.BS P)) i = blk c.BS (cbcEnc c ks (padBytes c.BS P')) i) ∧
    (m * c.BS ≤ P.length → m * c.BS ≤ P'.length → P.take (m * c.BS) = P'.take (m * c.BS) →
      ∀ i < m, blk c.BS (cbcEnc c ks (padBytes c.BS P)) i = blk c.BS (cbcEnc c ks (padBytes c.BS P')) i)

/-- Locality of decryption (42_cbc_engine.md R124): changing Block k of a ciphertext changes at most plaintext Blocks k
and k+1, the first to `XorBlock(D(ks, c'_k), Q_{k-1})`, the second by the bytewise difference of the two Blocks k. -/
def Obligations.CiphertextDamageStaysInTwoBlocks : Prop :=
  ∀ (c : Config) (ks : KeySchedule) (a b : Bytes) (k : Nat) (x y : Block c.BS),
    a.length % c.BS = 0 → a.length = b.length → blk c.BS a k = some x → blk c.BS b k = some y →
    (∀ i, i ≠ k → blk c.BS a i = blk c.BS b i) →
      (∀ i, i ≠ k → i ≠ k + 1 → blk c.BS (cbcDec c ks a) i = blk c.BS (cbcDec c ks b) i) ∧
      (k = 0 → blk c.BS (cbcDec c ks b) k = some (xorBlock (decryptBlock c ks y) (zeroBlock c.BS))) ∧
      (∀ q, 1 ≤ k → blk c.BS a (k - 1) = some q →
        blk c.BS (cbcDec c ks b) k = some (xorBlock (decryptBlock c ks y) q)) ∧
      (∀ p, blk c.BS (cbcDec c ks a) (k + 1) = some p →
        blk c.BS (cbcDec c ks b) (k + 1) = some (xorBlock p (xorBlock x y)))

/-- What the padding check detects (42_cbc_engine.md R125): DECRYPT reports PaddingInvalid if and only if UnpadCheck of
the recovered buffer is not valid, which depends on the length and the last two Blocks of IN only. -/
def Obligations.PaddingInvalidExactlyWhenTheFooterIsBad : Prop :=
  ∀ (c : Config) (l : Policy) (e : Engine c.BS),
    (statusErr (runCmd c (.decrypt l) e).STATUS = CmdOutcome.paddingInvalid.code ↔
      (e.IN.length ≠ 0 ∧ e.IN.length % c.BS = 0 ∧
        ∃ ks, c.prim.setKey e.KEY = some ks ∧ (unpadCheck c.BS (cbcDec c ks e.IN)).2 = false)) ∧
    (∀ (ks : KeySchedule) (a b : Bytes), a.length % c.BS = 0 → a.length = b.length →
      a.drop (a.length - 2 * c.BS) = b.drop (b.length - 2 * c.BS) →
        (unpadCheck c.BS (cbcDec c ks a)).2 = (unpadCheck c.BS (cbcDec c ks b)).2)

/-- The calls of the primitive per command and outcome (42_cbc_engine.md R127), as (SetKey, EncryptBlock, DecryptBlock).
That the counts are of the model's call list is the model's view (log 18). -/
def Obligations.PrimitiveCallsPerCommand : Prop :=
  ∀ (c : Config) (l : Policy) (e : Engine c.BS),
    let n := e.IN.length / c.BS
    let encErr := statusErr (runCmd c .encrypt e).STATUS
    let decErr := statusErr (runCmd c (.decrypt l) e).STATUS
    (encErr = 0#3 → callCounts (callsOf c (some .encrypt) e) = (1, n + 1, 0)) ∧
    (encErr = 4#3 → callCounts (callsOf c (some .encrypt) e) = (0, 0, 0)) ∧
    (encErr = 3#3 → callCounts (callsOf c (some .encrypt) e) = (1, 0, 0)) ∧
    (decErr = 0#3 ∨ decErr = 2#3 → callCounts (callsOf c (some (.decrypt l)) e) = (1, 0, n)) ∧
    (decErr = 1#3 → callCounts (callsOf c (some (.decrypt l)) e) = (0, 0, 0)) ∧
    (decErr = 3#3 → callCounts (callsOf c (some (.decrypt l)) e) = (1, 0, 0)) ∧
    callCounts (callsOf c (some .pad) e) = (0, 0, 0) ∧
    callCounts (callsOf c (some (.unpad l)) e) = (0, 0, 0) ∧
    callCounts (callsOf c none e) = (0, 0, 0)

/-! ### The hardware layer and the function-level interface -/

/-- The equivalence of 43_primitive_and_host_interface.md R143: after each word, `(ERR, OUT)` is what the pure function
gives for IN and KEY; KEY is emptied by ENCRYPT and DECRYPT; IN is unchanged. -/
def Obligations.CommandsComputeTheSpecFunctions : Prop :=
  ∀ (c : Config) (e : Engine c.BS) (l : Policy),
    let E := cmdWord c 0x02#8 e
    let D := cmdWord c (encode (.decrypt l)) e
    let A := cmdWord c 0x00#8 e
    let U := cmdWord c (encode (.unpad l)) e
    (statusErr E.STATUS = (encryptF c e.IN e.KEY).1.code ∧ E.OUT = (encryptF c e.IN e.KEY).2 ∧
      E.KEY = [] ∧ E.IN = e.IN) ∧
    (statusErr D.STATUS = (decryptF c e.IN e.KEY l).1.code ∧ D.OUT = (decryptF c e.IN e.KEY l).2 ∧
      D.KEY = [] ∧ D.IN = e.IN) ∧
    (statusErr A.STATUS = (padF c e.IN).1.code ∧ A.OUT = (padF c e.IN).2 ∧ A.KEY = e.KEY ∧ A.IN = e.IN) ∧
    (statusErr U.STATUS = (unpadF c e.IN l).1.code ∧ U.OUT = (unpadF c e.IN l).2 ∧ U.KEY = e.KEY ∧ U.IN = e.IN)

/-- Encrypt(P, K) (43_primitive_and_host_interface.md R160): for operands that can be staged, the ciphertext or the code
of the failure, from any engine. -/
def Obligations.EncryptCallReturnsCiphertextOrCode : Prop :=
  ∀ (c : Config) (P K : Bytes) (e : Engine c.BS), P.length ≤ c.MAXLEN → K.length ≤ c.KEYMAX →
    ∃ e', encryptCall c P K e = some (e',
      match encryptF c P K with
      | (.ok, out) => .ok out
      | (o, _) => .error o.code) ∧
    ((encryptF c P K).1 = .ok → outLen e' = P.length + padCount c.BS P.length)

/-- Decrypt(C, K) and Decrypt.L(C, K) (43_primitive_and_host_interface.md R161): the plaintext or the code of the failure;
OUT afterwards is what DecryptF delivers, for Decrypt.L with code 2 the unstripped buffer. -/
def Obligations.DecryptCallReturnsPlaintextOrCode : Prop :=
  ∀ (c : Config) (l : Policy) (C K : Bytes) (e : Engine c.BS), C.length ≤ c.MAXLEN → K.length ≤ c.KEYMAX →
    ∃ e', decryptCall c l C K e = some (e',
      match decryptF c C K l with
      | (.ok, out) => .ok out
      | (o, _) => .error o.code) ∧
    e'.OUT = (decryptF c C K l).2

/-! ### Errors, status, clean-up -/

/-- The first cause that applies is the one reported (60_exceptions.md R177): IllegalCommand, then the length check of the
operation, then KeyScheduleError, then PaddingInvalid, for every word and every engine. -/
def Obligations.FirstApplicableErrorIsReported : Prop :=
  ∀ (c : Config) (w : BitVec 8) (e : Engine c.BS),
    statusErr (cmdWord c w e).STATUS =
      match decode w with
      | .error _ => CmdOutcome.illegalCommand.code
      | .ok .pad =>
        if c.MAXLEN < e.IN.length + padCount c.BS e.IN.length then CmdOutcome.capacityExceeded.code
        else CmdOutcome.ok.code
      | .ok (.unpad _) =>
        if e.IN.length = 0 ∨ e.IN.length % c.BS ≠ 0 then CmdOutcome.invalidInputLength.code
        else if (unpadCheck c.BS e.IN).2 = false then CmdOutcome.paddingInvalid.code
        else CmdOutcome.ok.code
      | .ok .encrypt =>
        if c.MAXLEN < e.IN.length + padCount c.BS e.IN.length then CmdOutcome.capacityExceeded.code
        else
          match c.prim.setKey e.KEY with
          | none => CmdOutcome.keyScheduleError.code
          | some _ => CmdOutcome.ok.code
      | .ok (.decrypt _) =>
        if e.IN.length = 0 ∨ e.IN.length % c.BS ≠ 0 then CmdOutcome.invalidInputLength.code
        else
          match c.prim.setKey e.KEY with
          | none => CmdOutcome.keyScheduleError.code
          | some ks =>
            if (unpadCheck c.BS (cbcDec c ks e.IN)).2 = false then CmdOutcome.paddingInvalid.code
            else CmdOutcome.ok.code

/-- No partial output (60_exceptions.md R178): on every error except a lenient PaddingInvalid OUT is empty, and PBUF is
empty after every command. -/
def Obligations.ErrorsLeaveNoPartialOutput : Prop :=
  ∀ (c : Config) (w : BitVec 8) (e : Engine c.BS),
    (statusErr (cmdWord c w e).STATUS ≠ 0#3 →
      ¬ (statusErr (cmdWord c w e).STATUS = CmdOutcome.paddingInvalid.code ∧
        (decode w = .ok (.unpad .lenient) ∨ decode w = .ok (.decrypt .lenient))) →
      (cmdWord c w e).OUT = []) ∧
    (cmdWord c w e).PBUF = []

/-- The lenient policy in full (60_exceptions.md R181): a failed padding check gives STATUS 0x12 under both policies; with
`L = 1` OUT is the whole unstripped buffer and OUT_LEN = IN_LEN, with `L = 0` OUT is empty. -/
def Obligations.LenientPolicyDeliversTheUnstrippedBuffer : Prop :=
  ∀ (c : Config) (e : Engine c.BS), e.IN.length ≠ 0 → e.IN.length % c.BS = 0 →
    ((unpadCheck c.BS e.IN).2 = false →
      (runCmd c (.unpad .lenient) e).STATUS = 0x12#8 ∧ (runCmd c (.unpad .lenient) e).OUT = e.IN ∧
      outLen (runCmd c (.unpad .lenient) e) = inLen e ∧
      (runCmd c (.unpad .strict) e).STATUS = 0x12#8 ∧ (runCmd c (.unpad .strict) e).OUT = []) ∧
    (∀ ks, c.prim.setKey e.KEY = some ks → (unpadCheck c.BS (cbcDec c ks e.IN)).2 = false →
      (runCmd c (.decrypt .lenient) e).STATUS = 0x12#8 ∧ (runCmd c (.decrypt .lenient) e).OUT = cbcDec c ks e.IN ∧
      outLen (runCmd c (.decrypt .lenient) e) = inLen e ∧
      (runCmd c (.decrypt .strict) e).STATUS = 0x12#8 ∧ (runCmd c (.decrypt .strict) e).OUT = [])

/-- The end-of-command clean-up (10_state.md R33), for every word and every outcome: the transient slots are idle, and KEY
is emptied exactly by ENCRYPT and DECRYPT. -/
def Obligations.EveryCommandEndsWithTheCleanup : Prop :=
  ∀ (c : Config) (w : BitVec 8) (e : Engine c.BS),
    (cmdWord c w e).Idle ∧
    ((decode w = .ok .encrypt ∨ ∃ l, decode w = .ok (.decrypt l)) → (cmdWord c w e).KEY = []) ∧
    (¬ (decode w = .ok .encrypt ∨ ∃ l, decode w = .ok (.decrypt l)) → (cmdWord c w e).KEY = e.KEY) ∧
    (cmdWord c w e).IN = e.IN

/-- The status word after a command (10_state.md R25, R32): one of the seven values, DONE set, bits 7:5 zero, and VALID
exactly for an UNPAD or DECRYPT with ERR 0. -/
def Obligations.StatusAfterACommand : Prop :=
  ∀ (c : Config) (w : BitVec 8) (e : Engine c.BS),
    let st := (cmdWord c w e).STATUS
    st ∈ [0x10#8, 0x18#8, 0x11#8, 0x12#8, 0x13#8, 0x14#8, 0x15#8] ∧ statusDone st = true ∧ statusTop st = 0#3 ∧
    (statusValid st = true ↔
      statusErr st = 0#3 ∧ ((∃ l, decode w = .ok (.unpad l)) ∨ ∃ l, decode w = .ok (.decrypt l)))

/-! ### The machine as a whole -/

/-- The invariant holds at reset. -/
def Obligations.InvariantHoldsAtReset : Prop := State.reset.Inv

/-- Every step keeps the invariant: every buffer within its capacity, every transient slot idle, STATUS one of the eight
reachable values (20_memory.md R50, 10_state.md R33, R25). -/
def Obligations.EveryStepKeepsTheInvariant : Prop :=
  ∀ s t : State, s.Inv → step s = .next t → t.Inv

/-- No step faults, and only a load beyond capacity is refused (20_memory.md R58,
43_primitive_and_host_interface.md R150, R151, R152); that such a load stops the machine is log 6. -/
def Obligations.OnlyOversizedLoadsAreRefused : Prop :=
  ∀ s : State, (∃ t, step s = .next t) ∨
    (∃ b rest, s.script = .loadIn b :: rest ∧ Config.machine.MAXLEN < b.length ∧
      step s = .refused .loadInBeyondCapacity) ∨
    (∃ k rest, s.script = .loadKey k :: rest ∧ Config.machine.KEYMAX < k.length ∧
      step s = .refused .loadKeyBeyondCapacity)

/-- From any state that meets the invariant, a host whose loads fit is never stopped, for any number of steps. -/
def Obligations.HostsWhoseLoadsFitAreNeverStopped : Prop :=
  ∀ s : State, s.Inv → (∀ op ∈ s.script, op.wf Config.machine = true) → ∀ k, SafeRun k s

/-- The contents of IN and KEY and the transient slots are hidden (10_state.md R35, 43_primitive_and_host_interface.md
R157): a step that runs no command, on two machines that the host cannot tell apart and with the same operations pending,
returns the same values and leaves them indistinguishable. -/
def Obligations.HostCannotReadInKeyOrTransientState : Prop :=
  ∀ (s s' t : State) (op : HostOp) (rest : List HostOp), s.script = op :: rest → s'.script = op :: rest →
    s.seen = s'.seen → s.engine.observable = s'.engine.observable → (∀ w, op ≠ .cmd w) → step s = .next t →
      ∃ t', step s' = .next t' ∧ t.seen = t'.seen ∧ t.script = t'.script ∧
        t.engine.observable = t'.engine.observable

/-! ### Widths -/

/-- The length registers IN_LEN and OUT_LEN (00_scope.md R8, 10_state.md R23): LENW is the least number of bits that holds
every length in 0..MAXLEN; within the capacities the LENW-bit registers hold exactly the lengths of their buffers; and on
the machine the host reads return what they hold. That the value goes to the front of `seen` is the model's (log 4). -/
def Obligations.LengthRegistersHoldTheLengthsInLenwBits : Prop :=
  (∀ (c : Config) (k : Nat), lenWidth c ≤ k ↔ ∀ n ≤ c.MAXLEN, n < 2 ^ k) ∧
  (∀ (c : Config) (e : Engine c.BS), Memory.wf c e →
    (inLenReg c e).toNat = e.IN.length ∧ (outLenReg c e).toNat = e.OUT.length) ∧
  (∀ s : State, Memory.wf Config.machine s.engine →
    hostOp .readInLen s =
      .next { s with seen := .number (inLenReg Config.machine s.engine).toNat :: s.seen } ∧
    hostOp .readOutLen s =
      .next { s with seen := .number (outLenReg Config.machine s.engine).toNat :: s.seen })

/-- IDX never wraps (10_state.md R29): `ceil(log2(MAXLEN div BS + 1))` is the least number of bits that holds every index in
0..MAXLEN div BS, and after every step of a block loop, ENCRYPT's on an input that fits once padded and DECRYPT's on one
within capacity, IDX is at most MAXLEN div BS and that many bits hold it. -/
def Obligations.BlockIndexFitsTheBitsItNeeds : Prop :=
  (∀ (c : Config) (k : Nat), idxWidth c ≤ k ↔ ∀ n ≤ c.MAXLEN / c.BS, n < 2 ^ k) ∧
  (∀ (c : Config) (ks : KeySchedule) (e : Engine c.BS),
    (e.IN.length + padCount c.BS e.IN.length ≤ c.MAXLEN →
      ∀ t ∈ stepTrace (encStep c) (blockCount c.BS (encStart c ks e).PBUF) (encStart c ks e),
        t.IDX ≤ c.MAXLEN / c.BS ∧ (idxReg c t).toNat = t.IDX) ∧
    (e.IN.length ≤ c.MAXLEN →
      ∀ t ∈ stepTrace (decStep c) (blockCount c.BS e.IN) (decStart c ks e),
        t.IDX ≤ c.MAXLEN / c.BS ∧ (idxReg c t).toNat = t.IDX))

/-! ### What the host owes -/

/-- A host that meets what it owes (43_primitive_and_host_interface.md R158), from any engine: at every command it issues the
operations before it have run, the command does not end in CapacityExceeded, and an ENCRYPT or DECRYPT finds in KEY exactly
the key the host staged last, consumed by no command or reset since. Which duties are checked on a sequence is log 23. -/
def Obligations.HostMeetingItsDutiesIsKeyedAndWithinCapacity : Prop :=
  ∀ (c : Config) (ops before after : List HostOp) (w : BitVec 8) (e : Engine c.BS),
    meetsDuties c none ops e = true → ops = before ++ .cmd w :: after →
      ∃ e', runOps c before e = some e' ∧
        statusErr (cmdWord c w e').STATUS ≠ CmdOutcome.capacityExceeded.code ∧
        ((decode w = .ok .encrypt ∨ ∃ l, decode w = .ok (.decrypt l)) →
          before.foldl stagedKey none = some e'.KEY)

/-- Why the host reads STATUS before trusting OUT (43_primitive_and_host_interface.md R158, 70_reset_and_hazards.md R204), for
UNPAD, and for DECRYPT under every accepted key: an empty OUT is a legitimate empty plaintext with STATUS 0x18 and a strict
failure with 0x12, and the lenient forms put a non-empty OUT beside code 2; reading STATUS first tells the three apart. -/
def Obligations.StatusTellsWhatOutAloneCannot : Prop :=
  ∀ (c : Config) (e : Engine c.BS) (K : Bytes) (ks : KeySchedule), c.prim.setKey K = some ks →
    let empty := padBytes c.BS []
    let broken := List.replicate c.BS 0x00#8
    ∀ (good bad : Bytes) (command : Policy → Instr),
      (good, bad, command) ∈ [(empty, broken, Instr.unpad), (cbcEnc c ks empty, cbcEnc c ks broken, Instr.decrypt)] →
        let run (s : Bytes) (l : Policy) := runCmd c (command l) { e with IN := s, KEY := K }
        (∀ l, (run good l).OUT = [] ∧ (run good l).STATUS = 0x18#8 ∧ callResult (run good l) = .ok []) ∧
        ((run bad .strict).OUT = [] ∧ (run bad .strict).STATUS = 0x12#8 ∧
          callResult (run bad .strict) = .error CmdOutcome.paddingInvalid.code) ∧
        ((run bad .lenient).OUT = broken ∧ (run bad .lenient).OUT ≠ [] ∧ (run bad .lenient).STATUS = 0x12#8 ∧
          callResult (run bad .lenient) = .error CmdOutcome.paddingInvalid.code)
end

