-- ==== Sys2Proof/Laws/State.lean ====
section
/-! SUPPORT. One lemma per field per named update of the state, each true by `rfl`, so that no later proof unfolds a
record update. -/

namespace Sys2Proof.Machine

/-! ### The engine after reset -/

@[simp] theorem Engine.reset_IN (bs : Nat) : (Engine.reset bs).IN = [] := rfl
@[simp] theorem Engine.reset_KEY (bs : Nat) : (Engine.reset bs).KEY = [] := rfl
@[simp] theorem Engine.reset_OUT (bs : Nat) : (Engine.reset bs).OUT = [] := rfl
@[simp] theorem Engine.reset_STATUS (bs : Nat) : (Engine.reset bs).STATUS = 0#8 := rfl
@[simp] theorem Engine.reset_CHAIN (bs : Nat) : (Engine.reset bs).CHAIN = zeroBlock bs := rfl
@[simp] theorem Engine.reset_WORK (bs : Nat) : (Engine.reset bs).WORK = zeroBlock bs := rfl
@[simp] theorem Engine.reset_IDX (bs : Nat) : (Engine.reset bs).IDX = 0 := rfl
@[simp] theorem Engine.reset_KS (bs : Nat) : (Engine.reset bs).KS = none := rfl
@[simp] theorem Engine.reset_PBUF (bs : Nat) : (Engine.reset bs).PBUF = [] := rfl

@[simp] theorem State.reset_engine : State.reset.engine = Engine.reset Config.machine.BS := rfl
@[simp] theorem State.reset_script : State.reset.script = [] := rfl
@[simp] theorem State.reset_seen : State.reset.seen = [] := rfl

/-! ### An engine operation in a whole state -/

variable (f : Engine Config.machine.BS → Engine Config.machine.BS) (s : State)

@[simp] theorem State.onEngine_engine : (s.onEngine f).engine = f s.engine := rfl
@[simp] theorem State.onEngine_script : (s.onEngine f).script = s.script := rfl
@[simp] theorem State.onEngine_seen : (s.onEngine f).seen = s.seen := rfl

/-! ### A value returned to the host, and an operation put first -/

variable (v : HostValue) (op : HostOp) (nbits w : Nat)

@[simp] theorem State.returning_engine : (s.returning v).engine = s.engine := rfl
@[simp] theorem State.returning_script : (s.returning v).script = s.script := rfl
@[simp] theorem State.returning_seen : (s.returning v).seen = v :: s.seen := rfl

@[simp] theorem State.pushOp_engine : (s.pushOp op).engine = s.engine := rfl
@[simp] theorem State.pushOp_script : (s.pushOp op).script = op :: s.script := rfl
@[simp] theorem State.pushOp_seen : (s.pushOp op).seen = s.seen := rfl

@[simp] theorem State.withFetchWord_engine : (s.withFetchWord nbits w).engine = s.engine := rfl
@[simp] theorem State.withFetchWord_script :
    (s.withFetchWord nbits w).script = .cmd (BitVec.ofNat 8 (w % 2 ^ nbits)) :: s.script := rfl
@[simp] theorem State.withFetchWord_seen : (s.withFetchWord nbits w).seen = s.seen := rfl

/-! ### The clean-up (10_state.md R33) -/

variable {bs : Nat} (d : Option Instr) (e : Engine bs)

@[simp] theorem cleanup_IN : (cleanup d e).IN = e.IN := rfl
@[simp] theorem cleanup_KEY : (cleanup d e).KEY = if consumesKey d then [] else e.KEY := rfl
@[simp] theorem cleanup_OUT : (cleanup d e).OUT = e.OUT := rfl
@[simp] theorem cleanup_STATUS : (cleanup d e).STATUS = e.STATUS := rfl
@[simp] theorem cleanup_CHAIN : (cleanup d e).CHAIN = zeroBlock bs := rfl
@[simp] theorem cleanup_WORK : (cleanup d e).WORK = zeroBlock bs := rfl
@[simp] theorem cleanup_IDX : (cleanup d e).IDX = 0 := rfl
@[simp] theorem cleanup_KS : (cleanup d e).KS = none := rfl
@[simp] theorem cleanup_PBUF : (cleanup d e).PBUF = [] := rfl

/-! ### The engine after a command -/

variable (key out : Bytes) (st : BitVec 8)

@[simp] theorem Engine.settled_IN : (e.settled key out st).IN = e.IN := rfl
@[simp] theorem Engine.settled_KEY : (e.settled key out st).KEY = key := rfl
@[simp] theorem Engine.settled_OUT : (e.settled key out st).OUT = out := rfl
@[simp] theorem Engine.settled_STATUS : (e.settled key out st).STATUS = st := rfl
@[simp] theorem Engine.settled_CHAIN : (e.settled key out st).CHAIN = zeroBlock bs := rfl
@[simp] theorem Engine.settled_WORK : (e.settled key out st).WORK = zeroBlock bs := rfl
@[simp] theorem Engine.settled_IDX : (e.settled key out st).IDX = 0 := rfl
@[simp] theorem Engine.settled_KS : (e.settled key out st).KS = none := rfl
@[simp] theorem Engine.settled_PBUF : (e.settled key out st).PBUF = [] := rfl

/-! ### How a body ends (60_exceptions.md R176) -/

variable (o : CmdOutcome)

@[simp] theorem finish_engine : (finish e).engine = e := rfl
@[simp] theorem finish_outcome : (finish e).outcome = .ok := rfl
@[simp] theorem raise_engine : (raise o e).engine = e := rfl
@[simp] theorem raise_outcome : (raise o e).outcome = o := rfl

/-! ### The engine a block loop starts from -/

variable (c : Config) (ks : KeySchedule) (x : Engine c.BS)

@[simp] theorem encStart_IN : (encStart c ks x).IN = x.IN := rfl
@[simp] theorem encStart_KEY : (encStart c ks x).KEY = x.KEY := rfl
@[simp] theorem encStart_OUT : (encStart c ks x).OUT = x.OUT := rfl
@[simp] theorem encStart_CHAIN : (encStart c ks x).CHAIN = zeroBlock c.BS := rfl
@[simp] theorem encStart_IDX : (encStart c ks x).IDX = 0 := rfl
@[simp] theorem encStart_KS : (encStart c ks x).KS = some ks := rfl
@[simp] theorem encStart_PBUF : (encStart c ks x).PBUF = padBytes c.BS x.IN := rfl

@[simp] theorem decStart_IN : (decStart c ks x).IN = x.IN := rfl
@[simp] theorem decStart_KEY : (decStart c ks x).KEY = x.KEY := rfl
@[simp] theorem decStart_OUT : (decStart c ks x).OUT = x.OUT := rfl
@[simp] theorem decStart_CHAIN : (decStart c ks x).CHAIN = zeroBlock c.BS := rfl
@[simp] theorem decStart_IDX : (decStart c ks x).IDX = 0 := rfl
@[simp] theorem decStart_KS : (decStart c ks x).KS = some ks := rfl
@[simp] theorem decStart_PBUF : (decStart c ks x).PBUF = [] := rfl

end Sys2Proof.Machine
end

