-- ==== Sys2Proof/Laws/Blocks.lean ====
section
/-! SUPPORT. Buffers as lists of Blocks: when a Block exists (20_memory.md R52), and the two ways between a buffer and
its Blocks. Later proofs read a buffer through `blocksOf` and never unfold `blk`. -/

namespace Sys2Proof.Machine

/-- A read inside the buffer gives `n` bytes. -/
theorem memRead_of_le {s : Bytes} {a n : Nat} (h : a + n ≤ s.length) :
    memRead s a n = some ((s.drop a).take n) := by simp [memRead, h]

/-- Block `i` ends inside the buffer (20_memory.md R52). -/
theorem blk_end_le {bs : Nat} {s : Bytes} {i : Nat} (h : i < blockCount bs s) : i * bs + bs ≤ s.length := by
  have h1 : (i + 1) * bs ≤ s.length / bs * bs := Nat.mul_le_mul_right bs h
  have h2 := Nat.div_mul_le_self s.length bs
  have h3 : (i + 1) * bs = i * bs + bs := Nat.succ_mul i bs
  omega

/-- Everything `blk` can answer where the Block exists (20_memory.md R52). -/
theorem blk_of_lt {bs : Nat} {s : Bytes} {i : Nat} (h : i < blockCount bs s) :
    ∃ p : Block bs, blk bs s i = some p ∧ p.1 = (s.drop (i * bs)).take bs := by
  have hle := blk_end_le h
  have hlen : ((s.drop (i * bs)).take bs).length = bs := by
    rw [List.length_take, List.length_drop]; omega
  exact ⟨⟨_, hlen⟩, by simp [blk, memRead_of_le hle, h, hlen], rfl⟩

/-- No other Block exists (20_memory.md R52). -/
theorem blk_of_ge {bs : Nat} {s : Bytes} {i : Nat} (h : blockCount bs s ≤ i) : blk bs s i = none := by
  unfold blk
  split
  · rfl
  · rw [dif_neg]; omega

theorem blk_eq_some {bs : Nat} {s : Bytes} {i : Nat} {p : Block bs} (h : blk bs s i = some p) :
    i < blockCount bs s ∧ p.1 = (s.drop (i * bs)).take bs := by
  by_cases hi : i < blockCount bs s
  · obtain ⟨q, hq, hv⟩ := blk_of_lt hi
    rw [hq] at h
    cases h
    exact ⟨hi, hv⟩
  · rw [blk_of_ge (by omega)] at h
    cases h

theorem blockCount_cons {bs : Nat} (hbs : 1 ≤ bs) (p : Block bs) (s : Bytes) :
    blockCount bs (p.1 ++ s) = blockCount bs s + 1 := by
  rw [blockCount, blockCount, List.length_append, p.2, Nat.add_comm, Nat.add_div_right _ (by omega)]

theorem blk_cons_zero {bs : Nat} (hbs : 1 ≤ bs) (p : Block bs) (s : Bytes) : blk bs (p.1 ++ s) 0 = some p := by
  obtain ⟨q, hq, hv⟩ := blk_of_lt (bs := bs) (s := p.1 ++ s) (i := 0) (by rw [blockCount_cons hbs]; omega)
  rw [hq]
  congr 1
  apply Subtype.ext
  rw [hv, Nat.zero_mul, List.drop_zero]
  exact List.take_left' p.2

theorem blk_cons_succ {bs : Nat} (hbs : 1 ≤ bs) (p : Block bs) (s : Bytes) (i : Nat) :
    blk bs (p.1 ++ s) (i + 1) = blk bs s i := by
  by_cases hi : i < blockCount bs s
  · obtain ⟨q, hq, hv⟩ := blk_of_lt hi
    obtain ⟨r, hr, hw⟩ := blk_of_lt (bs := bs) (s := p.1 ++ s) (i := i + 1) (by rw [blockCount_cons hbs]; omega)
    rw [hq, hr]
    congr 1
    apply Subtype.ext
    rw [hv, hw]
    have h1 : (i + 1) * bs = p.1.length + i * bs := by rw [p.2, Nat.succ_mul, Nat.add_comm]
    rw [h1, List.drop_append, List.drop_eq_nil_of_le (by omega)]
    simp
  · rw [blk_of_ge (s := s) (by omega), blk_of_ge (by rw [blockCount_cons hbs]; omega)]

/-- The Blocks of a buffer that starts with a Block. -/
theorem blocksOf_cons {bs : Nat} (hbs : 1 ≤ bs) (p : Block bs) (s : Bytes) :
    blocksOf bs (p.1 ++ s) = p :: blocksOf bs s := by
  unfold blocksOf
  rw [blockCount_cons hbs, List.range_succ_eq_map, List.filterMap_cons]
  simp only [blk_cons_zero hbs, List.filterMap_map]
  congr 1
  apply List.filterMap_congr
  intro i _
  exact blk_cons_succ hbs p s i

theorem blocksOf_short {bs : Nat} {s : Bytes} (h : s.length < bs) : blocksOf bs s = [] := by
  simp [blocksOf, blockCount, Nat.div_eq_of_lt h]

@[simp] theorem joinBlocks_nil {bs : Nat} : joinBlocks ([] : List (Block bs)) = [] := rfl

@[simp] theorem joinBlocks_cons {bs : Nat} (p : Block bs) (l : List (Block bs)) :
    joinBlocks (p :: l) = p.1 ++ joinBlocks l := rfl

theorem length_joinBlocks {bs : Nat} (l : List (Block bs)) : (joinBlocks l).length = l.length * bs := by
  induction l with
  | nil => simp
  | cons p l ih => rw [joinBlocks_cons, List.length_append, ih, p.2, List.length_cons, Nat.succ_mul, Nat.add_comm]

/-- Joining Blocks and reading the Blocks back loses nothing (20_memory.md R52, "Conversely"). -/
theorem blocksOf_joinBlocks {bs : Nat} (hbs : 1 ≤ bs) (l : List (Block bs)) : blocksOf bs (joinBlocks l) = l := by
  induction l with
  | nil => exact blocksOf_short (by rw [joinBlocks_nil, List.length_nil]; omega)
  | cons p l ih => rw [joinBlocks_cons, blocksOf_cons hbs, ih]

/-- A block-aligned buffer is the concatenation of some Blocks. -/
theorem exists_joinBlocks {bs : Nat} (n : Nat) (s : Bytes) (h : s.length = n * bs) :
    ∃ l : List (Block bs), s = joinBlocks l ∧ l.length = n := by
  induction n generalizing s with
  | zero =>
    have : s = [] := List.length_eq_zero_iff.mp (by omega)
    exact ⟨[], by simp [this], rfl⟩
  | succ n ih =>
    rw [Nat.succ_mul] at h
    obtain ⟨l, hl, hn⟩ := ih (s.drop bs) (by rw [List.length_drop]; omega)
    refine ⟨⟨s.take bs, by rw [List.length_take]; omega⟩ :: l, ?_, by simp [hn]⟩
    rw [joinBlocks_cons, ← hl, List.take_append_drop]

theorem joinBlocks_blocksOf {bs : Nat} (hbs : 1 ≤ bs) {s : Bytes} (h : s.length % bs = 0) :
    joinBlocks (blocksOf bs s) = s := by
  obtain ⟨l, hl, -⟩ := exists_joinBlocks (s.length / bs) s (by
    have := Nat.div_add_mod s.length bs
    rw [h, Nat.add_zero, Nat.mul_comm] at this
    exact this.symm)
  rw [hl, blocksOf_joinBlocks hbs]

/-- Reading the first `n` Blocks of a buffer that has them gives `n` Blocks. -/
theorem length_firstBlocks {bs : Nat} (s : Bytes) (n : Nat) (hn : n ≤ blockCount bs s) :
    ((List.range n).filterMap (blk bs s)).length = n := by
  induction n with
  | zero => simp
  | succ n ih =>
    obtain ⟨p, hp, -⟩ := blk_of_lt (bs := bs) (s := s) (i := n) (by omega)
    rw [List.range_succ, List.filterMap_append, List.length_append, ih (by omega)]
    simp [hp]

theorem length_blocksOf {bs : Nat} (s : Bytes) : (blocksOf bs s).length = blockCount bs s :=
  length_firstBlocks s _ (Nat.le_refl _)

theorem firstBlocks_getElem? {bs : Nat} (s : Bytes) (i n : Nat) (hn : n ≤ blockCount bs s) (hi : i < n) :
    ((List.range n).filterMap (blk bs s))[i]? = blk bs s i := by
  induction n with
  | zero => omega
  | succ n ih =>
    have hlen := length_firstBlocks (bs := bs) s n (by omega)
    obtain ⟨p, hp, -⟩ := blk_of_lt (bs := bs) (s := s) (i := n) (by omega)
    rw [List.range_succ, List.filterMap_append]
    by_cases hlt : i < n
    · rw [List.getElem?_append_left (by omega)]
      exact ih (by omega) hlt
    · have : i = n := by omega
      subst this
      rw [List.getElem?_append_right (by omega), hlen]
      simp [hp]

/-- Block `i` of a buffer is entry `i` of its Blocks. -/
theorem blocksOf_getElem? {bs : Nat} (s : Bytes) (i : Nat) : (blocksOf bs s)[i]? = blk bs s i := by
  by_cases hi : i < blockCount bs s
  · exact firstBlocks_getElem? s i _ (Nat.le_refl _) hi
  · rw [blk_of_ge (by omega), List.getElem?_eq_none]
    rw [length_blocksOf]
    omega

end Sys2Proof.Machine
end

