-- ==== Sys2Proof/Laws/Chaining.lean ====
section
/-! SUPPORT. The block steps and their loops, said once: what one step can do, and where a loop over the remaining
Blocks ends. -/

namespace Sys2Proof.Machine

/-- Everything EncStep can do (42_cbc_engine.md R112): it applies exactly where its requirement holds. -/
theorem encStep_cases (c : Config) (e : Engine c.BS) :
    (∃ ks p, e.KS = some ks ∧ blk c.BS e.PBUF e.IDX = some p ∧
      encStep c e = some { e with
        WORK := xorBlock p e.CHAIN
        CHAIN := encryptBlock c ks (xorBlock p e.CHAIN)
        OUT := e.OUT ++ (encryptBlock c ks (xorBlock p e.CHAIN)).1
        IDX := e.IDX + 1 }) ∨
    ((e.KS = none ∨ blk c.BS e.PBUF e.IDX = none) ∧ encStep c e = none) := by
  unfold encStep
  rcases hk : e.KS with _ | ks
  · exact .inr ⟨.inl rfl, rfl⟩
  · rcases hb : blk c.BS e.PBUF e.IDX with _ | p
    · exact .inr ⟨.inr rfl, rfl⟩
    · exact .inl ⟨ks, p, rfl, rfl, rfl⟩

/-- Everything DecStep can do (42_cbc_engine.md R114). -/
theorem decStep_cases (c : Config) (e : Engine c.BS) :
    (∃ ks ct, e.KS = some ks ∧ blk c.BS e.IN e.IDX = some ct ∧
      decStep c e = some { e with
        WORK := decryptBlock c ks ct
        PBUF := e.PBUF ++ (xorBlock (decryptBlock c ks ct) e.CHAIN).1
        CHAIN := ct
        IDX := e.IDX + 1 }) ∨
    ((e.KS = none ∨ blk c.BS e.IN e.IDX = none) ∧ decStep c e = none) := by
  unfold decStep
  rcases hk : e.KS with _ | ks
  · exact .inr ⟨.inl rfl, rfl⟩
  · rcases hb : blk c.BS e.IN e.IDX with _ | ct
    · exact .inr ⟨.inr rfl, rfl⟩
    · exact .inl ⟨ks, ct, rfl, rfl, rfl⟩

@[simp] theorem encBlocks_nil (c : Config) (ks : KeySchedule) (prev : Block c.BS) : encBlocks c ks prev [] = [] := rfl

theorem encBlocks_cons (c : Config) (ks : KeySchedule) (prev p : Block c.BS) (ps : List (Block c.BS)) :
    encBlocks c ks prev (p :: ps) =
      encryptBlock c ks (xorBlock p prev) :: encBlocks c ks (encryptBlock c ks (xorBlock p prev)) ps := rfl

@[simp] theorem decBlocks_nil (c : Config) (ks : KeySchedule) (prev : Block c.BS) : decBlocks c ks prev [] = [] := rfl

theorem decBlocks_cons (c : Config) (ks : KeySchedule) (prev ct : Block c.BS) (cts : List (Block c.BS)) :
    decBlocks c ks prev (ct :: cts) = xorBlock (decryptBlock c ks ct) prev :: decBlocks c ks ct cts := rfl

@[simp] theorem length_encBlocks (c : Config) (ks : KeySchedule) (prev : Block c.BS) (l : List (Block c.BS)) :
    (encBlocks c ks prev l).length = l.length := by
  induction l generalizing prev with
  | nil => rfl
  | cons p l ih => simp [encBlocks_cons, ih]

@[simp] theorem length_decBlocks (c : Config) (ks : KeySchedule) (prev : Block c.BS) (l : List (Block c.BS)) :
    (decBlocks c ks prev l).length = l.length := by
  induction l generalizing prev with
  | nil => rfl
  | cons p l ih => simp [decBlocks_cons, ih]

/-- A loop of EncSteps over the Blocks that remain: OUT grows by their encryption, and the slots the steps do not write
stay. -/
theorem stepLoop_encStep (c : Config) (ks : KeySchedule) (n : Nat) (e : Engine c.BS) (hks : e.KS = some ks)
    (hn : e.IDX + n = blockCount c.BS e.PBUF) :
    let r := stepLoop (encStep c) n e
    r.OUT = e.OUT ++ joinBlocks (encBlocks c ks e.CHAIN ((blocksOf c.BS e.PBUF).drop e.IDX)) ∧
      r.IDX = blockCount c.BS e.PBUF ∧ r.IN = e.IN ∧ r.KEY = e.KEY ∧ r.PBUF = e.PBUF ∧ r.KS = e.KS ∧
      r.STATUS = e.STATUS := by
  induction n generalizing e with
  | zero =>
    have hd : (blocksOf c.BS e.PBUF).drop e.IDX = [] := List.drop_eq_nil_of_le (by rw [length_blocksOf]; omega)
    refine ⟨?_, hn, rfl, rfl, rfl, rfl, rfl⟩
    simp only [hd, encBlocks_nil, joinBlocks_nil, List.append_nil]
    rfl
  | succ n ih =>
    obtain ⟨q, hq, -⟩ := blk_of_lt (bs := c.BS) (s := e.PBUF) (i := e.IDX) (by omega)
    rcases encStep_cases c e with ⟨ks', p, hk, hp, he⟩ | ⟨h | h, -⟩
    · rw [hks] at hk
      cases hk
      have hd : (blocksOf c.BS e.PBUF).drop e.IDX = p :: (blocksOf c.BS e.PBUF).drop (e.IDX + 1) := by
        apply List.drop_eq_getElem?_toList_append.trans
        rw [blocksOf_getElem?, hp]
        rfl
      have h := ih (e := { e with
        WORK := xorBlock p e.CHAIN
        CHAIN := encryptBlock c ks (xorBlock p e.CHAIN)
        OUT := e.OUT ++ (encryptBlock c ks (xorBlock p e.CHAIN)).1
        IDX := e.IDX + 1 }) hks (by simp only; omega)
      simp only [stepLoop, he]
      refine ⟨?_, h.2⟩
      rw [h.1, hd, encBlocks_cons, joinBlocks_cons, List.append_assoc]
    · rw [hks] at h
      cases h
    · rw [hq] at h
      cases h

/-- A loop of DecSteps over the Blocks that remain: PBUF grows by their decryption, and the slots the steps do not
write stay. -/
theorem stepLoop_decStep (c : Config) (ks : KeySchedule) (n : Nat) (e : Engine c.BS) (hks : e.KS = some ks)
    (hn : e.IDX + n = blockCount c.BS e.IN) :
    let r := stepLoop (decStep c) n e
    r.PBUF = e.PBUF ++ joinBlocks (decBlocks c ks e.CHAIN ((blocksOf c.BS e.IN).drop e.IDX)) ∧
      r.IDX = blockCount c.BS e.IN ∧ r.IN = e.IN ∧ r.KEY = e.KEY ∧ r.OUT = e.OUT ∧ r.KS = e.KS ∧
      r.STATUS = e.STATUS := by
  induction n generalizing e with
  | zero =>
    have hd : (blocksOf c.BS e.IN).drop e.IDX = [] := List.drop_eq_nil_of_le (by rw [length_blocksOf]; omega)
    refine ⟨?_, hn, rfl, rfl, rfl, rfl, rfl⟩
    simp only [hd, decBlocks_nil, joinBlocks_nil, List.append_nil]
    rfl
  | succ n ih =>
    obtain ⟨q, hq, -⟩ := blk_of_lt (bs := c.BS) (s := e.IN) (i := e.IDX) (by omega)
    rcases decStep_cases c e with ⟨ks', ct, hk, hp, he⟩ | ⟨h | h, -⟩
    · rw [hks] at hk
      cases hk
      have hd : (blocksOf c.BS e.IN).drop e.IDX = ct :: (blocksOf c.BS e.IN).drop (e.IDX + 1) := by
        apply List.drop_eq_getElem?_toList_append.trans
        rw [blocksOf_getElem?, hp]
        rfl
      have h := ih (e := { e with
        WORK := decryptBlock c ks ct
        PBUF := e.PBUF ++ (xorBlock (decryptBlock c ks ct) e.CHAIN).1
        CHAIN := ct
        IDX := e.IDX + 1 }) hks (by simp only; omega)
      simp only [stepLoop, he]
      refine ⟨?_, h.2⟩
      rw [h.1, hd, decBlocks_cons, joinBlocks_cons, List.append_assoc]
    · rw [hks] at h
      cases h
    · rw [hq] at h
      cases h

end Sys2Proof.Machine
end

