-- ==== Sys2Proof/Laws/Ops.lean ====
section
/-! SUPPORT. One lemma per shared operation, saying once all it can do: the frame around a command, the loads, and the
step over host operations. -/

namespace Sys2Proof.Machine

/-- What the frame of 43_primitive_and_host_interface.md R152 leaves, for a body that does not write IN: everything
but KEY, OUT and STATUS is settled whatever the body did. -/
theorem runFrame_eq_settled {bs : Nat} (d : Option Instr) (body : Engine bs → Ending bs) (e : Engine bs)
    (hin : (body { e with OUT := [] }).engine.IN = e.IN) :
    runFrame d body e =
      e.settled (if consumesKey d then [] else (body { e with OUT := [] }).engine.KEY)
        (body { e with OUT := [] }).engine.OUT
        (statusWord (validBit d (body { e with OUT := [] }).outcome) (body { e with OUT := [] }).outcome) := by
  simp [runFrame, Engine.settled, cleanup, hin]

/-- Every word the frame writes is one of the seven of 10_state.md R25 other than the reset value, for the outcomes a
command can have. -/
theorem statusWord_ok_valid : statusWord true .ok = 0x18#8 := by decide
theorem statusWord_ok : statusWord false .ok = 0x10#8 := by decide
theorem statusWord_invalidInputLength : statusWord false .invalidInputLength = 0x11#8 := by decide
theorem statusWord_paddingInvalid : statusWord false .paddingInvalid = 0x12#8 := by decide
theorem statusWord_keyScheduleError : statusWord false .keyScheduleError = 0x13#8 := by decide
theorem statusWord_capacityExceeded : statusWord false .capacityExceeded = 0x14#8 := by decide
theorem statusWord_illegalCommand : statusWord false .illegalCommand = 0x15#8 := by decide

/-- The VALID bit is only ever set with the outcome OK (10_state.md R32). -/
theorem validBit_of_ne_ok (d : Option Instr) {o : CmdOutcome} (h : o ≠ .ok) : validBit d o = false := by
  cases d with
  | none => rfl
  | some i => cases o <;> simp_all [validBit]

@[simp] theorem validBit_none (o : CmdOutcome) : validBit none o = false := rfl
@[simp] theorem validBit_ok (i : Instr) : validBit (some i) .ok = checksPadding i := by simp [validBit]

@[simp] theorem checksPadding_pad : checksPadding .pad = false := rfl
@[simp] theorem checksPadding_unpad (l : Policy) : checksPadding (.unpad l) = true := rfl
@[simp] theorem checksPadding_encrypt : checksPadding .encrypt = false := rfl
@[simp] theorem checksPadding_decrypt (l : Policy) : checksPadding (.decrypt l) = true := rfl

@[simp] theorem consumesKey_none : consumesKey none = false := rfl
@[simp] theorem consumesKey_pad : consumesKey (some .pad) = false := rfl
@[simp] theorem consumesKey_unpad (l : Policy) : consumesKey (some (.unpad l)) = false := rfl
@[simp] theorem consumesKey_encrypt : consumesKey (some .encrypt) = true := rfl
@[simp] theorem consumesKey_decrypt (l : Policy) : consumesKey (some (.decrypt l)) = true := rfl

/-- An error is reported with its own code and VALID 0, whatever the command (60_exceptions.md R176). -/
theorem statusWord_of_error (d : Option Instr) {o : CmdOutcome} (h : o ≠ .ok) :
    statusWord (validBit d o) o = statusWord false o := by rw [validBit_of_ne_ok d h]

/-! ### How a result is delivered (41_padding_codec.md R97, 42_cbc_engine.md R118) -/

@[simp] theorem deliver_OUT {bs : Nat} (r : CmdOutcome × Bytes) (e : Engine bs) : (deliver r e).engine.OUT = r.2 := by
  unfold deliver; split <;> rfl
@[simp] theorem deliver_IN {bs : Nat} (r : CmdOutcome × Bytes) (e : Engine bs) : (deliver r e).engine.IN = e.IN := by
  unfold deliver; split <;> rfl
@[simp] theorem deliver_KEY {bs : Nat} (r : CmdOutcome × Bytes) (e : Engine bs) : (deliver r e).engine.KEY = e.KEY := by
  unfold deliver; split <;> rfl
@[simp] theorem deliver_outcome {bs : Nat} (r : CmdOutcome × Bytes) (e : Engine bs) :
    (deliver r e).outcome = r.1 := by
  unfold deliver; split <;> simp_all

/-- The length check of 60_exceptions.md R171. -/
theorem badLength_iff (bs : Nat) (s : Bytes) : badLength bs s = true ↔ s.length = 0 ∨ s.length % bs ≠ 0 := by
  simp [badLength]

/-- The capacity check of 60_exceptions.md R173. -/
theorem exceedsCapacity_iff (c : Config) (s : Bytes) :
    exceedsCapacity c s = true ↔ c.MAXLEN < s.length + padCount c.BS s.length := by
  simp [exceedsCapacity]

/-- The outcome of Strip is that of the padding check, under both policies (41_padding_codec.md R94). -/
theorem strip_outcome (bs : Nat) (b : Bytes) (l : Policy) :
    (strip bs b l).1 = if (unpadCheck bs b).2 then .ok else .paddingInvalid := by
  unfold strip
  cases h : (unpadCheck bs b).2 <;> cases l <;> simp [h]

/-- Everything H_LOAD_IN can do (43_primitive_and_host_interface.md R150). -/
theorem loadIn_cases (c : Config) (s : Bytes) (e : Engine c.BS) :
    (s.length ≤ c.MAXLEN ∧ loadIn c s e = some { e with IN := s }) ∨
      (c.MAXLEN < s.length ∧ loadIn c s e = none) := by
  by_cases h : s.length ≤ c.MAXLEN
  · exact .inl ⟨h, by simp [loadIn, h]⟩
  · exact .inr ⟨by omega, by simp [loadIn, h]⟩

/-- Everything H_LOAD_KEY can do (43_primitive_and_host_interface.md R151). -/
theorem loadKey_cases (c : Config) (k : Bytes) (e : Engine c.BS) :
    (k.length ≤ c.KEYMAX ∧ loadKey c k e = some { e with KEY := k }) ∨
      (c.KEYMAX < k.length ∧ loadKey c k e = none) := by
  by_cases h : k.length ≤ c.KEYMAX
  · exact .inl ⟨h, by simp [loadKey, h]⟩
  · exact .inr ⟨by omega, by simp [loadKey, h]⟩

theorem loadIn_of_le {c : Config} {s : Bytes} (e : Engine c.BS) (h : s.length ≤ c.MAXLEN) :
    loadIn c s e = some { e with IN := s } := if_pos h

theorem loadKey_of_le {c : Config} {k : Bytes} (e : Engine c.BS) (h : k.length ≤ c.KEYMAX) :
    loadKey c k e = some { e with KEY := k } := if_pos h

/-! ### Widths of the length registers and of IDX (00_scope.md R8, 10_state.md R29) -/

/-- `ceilLog2 n` is the least number of bits with `n` values. -/
theorem ceilLog2_le_iff {n k : Nat} : ceilLog2 n ≤ k ↔ n ≤ 2 ^ k := Nat.clog_le_iff_le_pow (by omega)

/-- Every number up to `m` fits the width made for `m`. -/
theorem lt_two_pow_ceilLog2 {n m : Nat} (h : n ≤ m) : n < 2 ^ ceilLog2 (m + 1) := by
  have := ceilLog2_le_iff.mp (Nat.le_refl (ceilLog2 (m + 1)))
  omega

/-! ### Memory within its capacities (20_memory.md R50) -/

theorem reset_keeps_wf (c : Config) : Memory.wf c (Engine.reset c.BS) := by simp [Memory.wf]

theorem loadIn_keeps_wf {c : Config} {s : Bytes} {e e' : Engine c.BS} (h : loadIn c s e = some e')
    (hw : Memory.wf c e) : Memory.wf c e' := by
  rcases loadIn_cases c s e with ⟨hs, he⟩ | ⟨-, he⟩
  · rw [he] at h
    cases h
    exact ⟨hs, hw.2⟩
  · rw [he] at h
    cases h

theorem loadKey_keeps_wf {c : Config} {k : Bytes} {e e' : Engine c.BS} (h : loadKey c k e = some e')
    (hw : Memory.wf c e) : Memory.wf c e' := by
  rcases loadKey_cases c k e with ⟨hk, he⟩ | ⟨-, he⟩
  · rw [he] at h
    cases h
    exact ⟨hw.1, hk, hw.2.2⟩
  · rw [he] at h
    cases h

theorem cleanup_keeps_wf {c : Config} (d : Option Instr) {e : Engine c.BS} (hw : Memory.wf c e) :
    Memory.wf c (cleanup d e) := by
  obtain ⟨h1, h2, h3, -⟩ := hw
  refine ⟨h1, ?_, h3, by simp⟩
  cases hd : consumesKey d
  · simpa [hd] using h2
  · simp [hd]

/-- The frame keeps the capacities if its body does. -/
theorem runFrame_keeps_wf {c : Config} (d : Option Instr) (body : Engine c.BS → Ending c.BS) (e : Engine c.BS)
    (hb : Memory.wf c (body { e with OUT := [] }).engine) : Memory.wf c (runFrame d body e) :=
  cleanup_keeps_wf d hb

/-! ### Sequences of host operations, and what the host owes along them (43_primitive_and_host_interface.md R158) -/

theorem runOps_cons {c : Config} {op : HostOp} {ops : List HostOp} {e e' : Engine c.BS}
    (h : opOnEngine c op e = some e') : runOps c (op :: ops) e = runOps c ops e' := by simp [runOps, h]

/-- Everything that meeting the duties along a sequence says of its first operation. -/
theorem meetsDuties_cons {c : Config} {k : Option Bytes} {op : HostOp} {ops : List HostOp} {e : Engine c.BS} :
    meetsDuties c k (op :: ops) e = true ↔
      opDuty c k op e = true ∧
        ∃ e', opOnEngine c op e = some e' ∧ meetsDuties c (stagedKey k op) ops e' = true := by
  cases h : opOnEngine c op e <;> simp [meetsDuties, h]

/-- What is owed to H_CMD of a legal word is what is owed to its command. -/
theorem opDuty_cmd {c : Config} {k : Option Bytes} {w : BitVec 8} {i : Instr} {e : Engine c.BS} (h : decode w = .ok i) :
    opDuty c k (.cmd w) e = commandDuty c k i e := by simp [opDuty, h]

@[simp] theorem stagedKey_loadKey (k : Option Bytes) (b : Bytes) : stagedKey k (.loadKey b) = some b := rfl
@[simp] theorem stagedKey_reset (k : Option Bytes) : stagedKey k .reset = none := rfl

/-! ### One step -/

theorem step_nil {s : State} (h : s.script = []) : step s = .next s := by simp [step, h, idleStep]

/-- With an operation pending, a step is that operation on the state with it taken off the list. -/
theorem step_cons {s : State} {op : HostOp} {rest : List HostOp} (h : s.script = op :: rest) :
    step s = hostOp op { s with script := rest } := by simp [step, h]

/-- Every command goes on, whatever the state (43_primitive_and_host_interface.md R152), and touches the engine only. -/
theorem exec_goes_on (i : Instr) (s : State) : ∃ f, exec i s = .next (s.onEngine f) := by
  cases i with
  | pad => exact ⟨_, rfl⟩
  | unpad l => exact ⟨_, rfl⟩
  | encrypt => exact ⟨_, rfl⟩
  | decrypt l => exact ⟨_, rfl⟩

/-- Writing any word to CMD goes on and touches the engine only. -/
theorem hCmd_goes_on (w : BitVec 8) (s : State) : ∃ f, hCmd w s = .next (s.onEngine f) := by
  unfold hCmd
  split
  · exact exec_goes_on _ s
  · exact ⟨_, rfl⟩

end Sys2Proof.Machine
end

