-- ==== Sys2Proof/Laws/PerInstr.lean ====
section
/-! SUPPORT. Statements made of every command, one lemma per constructor. -/

namespace Sys2Proof.Laws.FieldsWellFormed

/-- The command's fields are those of a legal word (30_encoding.md R72, R73, R76), and they are what the encoded word
holds (R70). -/
def Statement (i : Instr) : Prop := i.fields.wf = true ∧ CmdFields.ofWord (encode i) = i.fields

theorem pad : Statement .pad := ⟨by decide, by decide⟩

theorem unpad (l : Policy) : Statement (.unpad l) := by cases l <;> exact ⟨by decide, by decide⟩

theorem encrypt : Statement .encrypt := ⟨by decide, by decide⟩

theorem decrypt (l : Policy) : Statement (.decrypt l) := by cases l <;> exact ⟨by decide, by decide⟩

end Sys2Proof.Laws.FieldsWellFormed
end

