-- ==== Sys2Proof/Tests/Slice0.lean ====
section
/-! SUPPORT. Tests on fixed values, each expected result from spec/ (95_test_vectors.md, the vector named in the
docstring), and one witness for every statement that has hypotheses. -/

namespace Sys2Proof.Tests

open Sys2Proof Sys2Proof.Machine

/-! ### The fixture primitives of 95_test_vectors.md section 3 -/

theorem zipWith_undo {f g : Byte → Byte → Byte} (h : ∀ x k, g (f x k) k = x) (l m : Bytes)
    (hl : l.length = m.length) : List.zipWith g (List.zipWith f l m) m = l := by
  induction l generalizing m with
  | nil => simp
  | cons x l ih =>
    cases m with
    | nil => simp at hl
    | cons k m => simp [h, ih m (by simpa using hl)]

/-- The `bs` bytes of a fixture's schedule. -/
def scheduleBytes (bs : Nat) (ks : KeySchedule) : Bytes := (List.range bs).map fun j => (ks.code[j]?).getD 0#8

/-- Combine byte `j` of a Block with byte `j` of the schedule. -/
def zipBlock {bs : Nat} (f : Byte → Byte → Byte) (ks : KeySchedule) (b : Block bs) : Block bs :=
  ⟨List.zipWith f b.1 (scheduleBytes bs ks), by simp [scheduleBytes, b.2]⟩

theorem zipBlock_undo {bs : Nat} {f g : Byte → Byte → Byte} (h : ∀ x k, g (f x k) k = x) (ks : KeySchedule)
    (b : Block bs) : zipBlock g ks (zipBlock f ks b) = b :=
  Subtype.ext (zipWith_undo h b.1 _ (by simp [scheduleBytes, b.2]))

/-- Byte `(j + n) mod bs` of a Block as byte `j`. -/
def rotBlock {bs : Nat} (n : Nat) (b : Block bs) : Block bs := ⟨b.1.rotate n, by simp [b.2]⟩

theorem rotBlock_undo {bs : Nat} {m n : Nat} (h : m + n = bs ∨ bs = 0) (b : Block bs) :
    rotBlock n (rotBlock m b) = b := by
  apply Subtype.ext
  show (b.1.rotate m).rotate n = b.1
  rcases h with h | h
  · rw [List.rotate_rotate, h]
    exact (congrArg b.1.rotate b.2.symm).trans (List.rotate_length b.1)
  · have : b.1 = [] := List.length_eq_zero_iff.mp (b.2.trans h)
    simp [this]

/-- SetKey of T_XORK and T_ROTADD: rejects the empty key, else repeats the key over a Block. -/
def repeatKey (bs : Nat) (k : Bytes) : Option KeySchedule :=
  if k.isEmpty then none else some ⟨(List.range bs).map fun j => (k[j % k.length]?).getD 0#8⟩

/-- T_ID: every key accepted, no change to a Block. -/
def tId (bs : Nat) : Prim bs where
  setKey k := some ⟨k⟩
  cipher _ := Equiv.refl _

/-- T_XORK: exclusive-or with the schedule. -/
def tXork (bs : Nat) : Prim bs where
  setKey := repeatKey bs
  cipher ks :=
    { toFun := zipBlock (· ^^^ ·) ks
      invFun := zipBlock (· ^^^ ·) ks
      left_inv := zipBlock_undo (fun x k => by simp) ks
      right_inv := zipBlock_undo (fun x k => by simp) ks }

/-- T_ROTADD: rotate by one byte and add the schedule. -/
def tRotadd (bs : Nat) : Prim bs where
  setKey := repeatKey bs
  cipher ks :=
    { toFun := fun b => zipBlock (· + ·) ks (rotBlock 1 b)
      invFun := fun b => rotBlock (bs - 1) (zipBlock (· - ·) ks b)
      left_inv := fun b => by
        show rotBlock (bs - 1) (zipBlock (· - ·) ks (zipBlock (· + ·) ks (rotBlock 1 b))) = b
        rw [zipBlock_undo (fun x k => by simp), rotBlock_undo (by omega)]
      right_inv := fun b => by
        show zipBlock (· + ·) ks (rotBlock 1 (rotBlock (bs - 1) (zipBlock (· - ·) ks b))) = b
        rw [rotBlock_undo (by omega), zipBlock_undo (fun x k => by simp)] }

/-- BS = 8, KEYMAX = 16, with the capacity and the primitive of a vector. -/
def cfg (blocks : Nat) (prim : Prim 8) (h : 1 ≤ blocks := by decide) : Config where
  BS := 8
  MAXLEN := 8 * blocks
  KEYMAX := 16
  prim := prim
  bs_pos := by decide
  bs_le := by decide
  maxlen_pos := by omega
  maxlen_mul := by simp
  keymax_pos := by decide

/-- MAXLEN = 64, T_XORK. -/
def cX : Config := cfg 8 (tXork 8)

/-- MAXLEN = 64, T_ROTADD. -/
def cR : Config := cfg 8 (tRotadd 8)

/-- MAXLEN = 16, T_XORK. -/
def cS : Config := cfg 2 (tXork 8)

/-- The engine just reset, with IN and KEY loaded. -/
def staged (c : Config) (b k : Bytes) : Engine c.BS := { Engine.reset c.BS with IN := b, KEY := k }

/-- The next state of a step that has one. -/
def nextOf : Host.Outcome State Fault Refusal → Option State
  | .next t => some t
  | _ => none

/-- K0. -/
def k0 : Bytes := [0x01#8, 0x23#8, 0x45#8, 0x67#8, 0x89#8, 0xAB#8, 0xCD#8, 0xEF#8]

/-- "ABCDE". -/
def abcde : Bytes := [0x41#8, 0x42#8, 0x43#8, 0x44#8, 0x45#8]

/-- "ABCDEFGH". -/
def abcdefgh : Bytes := [0x41#8, 0x42#8, 0x43#8, 0x44#8, 0x45#8, 0x46#8, 0x47#8, 0x48#8]

/-- The ciphertext of ENC-7. -/
def enc7 : Bytes := [0x40#8, 0x61#8, 0x06#8, 0x23#8, 0xCC#8, 0xA8#8, 0xCE#8, 0xEC#8]

/-- The ciphertext of ENC-13. -/
def enc13 : Bytes := [0x43#8, 0x66#8, 0x89#8, 0xAC#8, 0xCF#8, 0xF2#8, 0x15#8, 0x30#8, 0x6F#8, 0xA4#8, 0xE9#8, 0x2E#8,
  0x83#8, 0xC8#8, 0x05#8, 0x3A#8]

/-- The schedule of K0 under T_XORK and T_ROTADD. -/
def s0 : KeySchedule := ⟨k0⟩

/-! ### Well-formedness: an ill-formed term for each check, and the check refuses it -/

theorem test_wf_refuses_reserved_bits : ({ OP := 0#2, L := false, RSV := 1#5 } : CmdFields).wf = false := by decide
theorem test_wf_refuses_policy_with_pad : ({ OP := 0#2, L := true, RSV := 0#5 } : CmdFields).wf = false := by decide
theorem test_wf_refuses_policy_with_encrypt : ({ OP := 2#2, L := true, RSV := 0#5 } : CmdFields).wf = false := by decide
theorem test_wf_accepts_unpad_lenient : ({ OP := 1#2, L := true, RSV := 0#5 } : CmdFields).wf = true := by decide
theorem test_wf_refuses_oversized_load_in : (HostOp.loadIn (List.replicate 17 0#8)).wf cS = false := by decide
theorem test_wf_refuses_oversized_load_key : (HostOp.loadKey (List.replicate 17 0#8)).wf cS = false := by decide
theorem test_wf_accepts_full_load_in : (HostOp.loadIn (List.replicate 16 0#8)).wf cS = true := by decide
theorem test_config_refuses_bs_zero : (Config.build 0 8 1 (tId 0)).isNone = true := by decide
theorem test_config_refuses_bs_256 : (Config.build 256 256 1 (tId 256)).isNone = true := by decide
theorem test_config_refuses_maxlen_zero : (Config.build 8 0 1 (tId 8)).isNone = true := by decide
theorem test_config_refuses_maxlen_unaligned : (Config.build 8 12 1 (tId 8)).isNone = true := by decide
theorem test_config_refuses_keymax_zero : (Config.build 8 8 0 (tId 8)).isNone = true := by decide
theorem test_config_accepts_bs_255 : (Config.build 255 255 1 (tId 255)).isSome = true := by decide

/-! ### Decoding: words written out bit by bit from 30_encoding.md R70 and R75 -/

theorem test_decode_pad : decode 0b00000000#8 = .ok .pad := by decide
theorem test_decode_unpad : decode 0b00000001#8 = .ok (.unpad .strict) := by decide
theorem test_decode_unpad_l : decode 0b00000101#8 = .ok (.unpad .lenient) := by decide
theorem test_decode_encrypt : decode 0b00000010#8 = .ok .encrypt := by decide
theorem test_decode_decrypt : decode 0b00000011#8 = .ok (.decrypt .strict) := by decide
theorem test_decode_decrypt_l : decode 0b00000111#8 = .ok (.decrypt .lenient) := by decide
/-- ERR-10 to ERR-16. -/
theorem test_decode_illegal : ([0x04#8, 0x06#8, 0x08#8, 0x0A#8, 0x13#8, 0x80#8, 0xFF#8].map decode) =
    [.error .policyWithoutCheck, .error .policyWithoutCheck, .error .reservedBits, .error .reservedBits,
      .error .reservedBits, .error .reservedBits, .error .reservedBits] := by decide
theorem test_table_words : ([0, 1, 5, 2, 3, 7].map (decodeTableWord 8)) =
    [some .pad, some (.unpad .strict), some (.unpad .lenient), some .encrypt, some (.decrypt .strict),
      some (.decrypt .lenient)] := by decide
/-- A command has no second word (R79). -/
theorem test_table_word_too_long : decodeTableWord 16 0x0100 = none := by decide

/-! ### Commands: at most two vectors each -/

/-- PAD-3, the source's S3. -/
theorem test_pad_abcde : cmdPad cX (staged cX abcde k0) =
    (staged cX abcde k0).settled k0 (abcde ++ [0x03#8, 0x03#8, 0x03#8]) 0x10#8 := by decide
/-- CAP-3: a full buffer cannot be padded; the key stays. -/
theorem test_pad_full : cmdPad cS (staged cS (List.replicate 16 0#8) k0) =
    (staged cS (List.replicate 16 0#8) k0).settled k0 [] 0x14#8 := by decide

/-- UNP-4: a bad footer, strict and lenient. -/
theorem test_unpad_bad_footer :
    let b := abcde ++ [0x03#8, 0x03#8, 0x02#8]
    (cmdUnpad cX .strict (staged cX b k0)).OUT = [] ∧ (cmdUnpad cX .lenient (staged cX b k0)).OUT = b ∧
      (cmdUnpad cX .lenient (staged cX b k0)).STATUS = 0x12#8 := by decide
/-- UNP-2, on the machine itself. -/
theorem test_unpad_abcde :
    (nextOf (exec (.unpad .strict) { State.reset with
      engine := { State.reset.engine with IN := abcde ++ [0x03#8, 0x03#8, 0x03#8], KEY := k0 } })).map
        (fun t => (t.engine.OUT, t.engine.STATUS, t.engine.KEY)) = some (abcde, 0x18#8, k0) := by decide

/-- ENC-13: two Blocks, chained, under a primitive that is no involution. -/
theorem test_encrypt_two_blocks : cmdEncrypt cR (staged cR abcdefgh k0) =
    (staged cR abcdefgh k0).settled [] enc13 0x10#8 := by decide
/-- ERR-4: a rejected key. -/
theorem test_encrypt_rejected_key : cmdEncrypt cX (staged cX abcde []) = (staged cX abcde []).settled [] [] 0x13#8 := by
  decide

/-- DECRYPT of ENC-13: the chaining value is the input ciphertext Block (WRG-1, WRG-2 would differ). -/
theorem test_decrypt_two_blocks : cmdDecrypt cR .strict (staged cR enc13 k0) =
    (staged cR enc13 k0).settled [] abcdefgh 0x18#8 := by decide
/-- TAM-1 under DECRYPT.L: the unstripped buffer, still reported. -/
theorem test_decrypt_lenient :
    let b : Bytes := [0x40#8, 0x61#8, 0x06#8, 0x23#8, 0xCC#8, 0xA8#8, 0xCE#8, 0xED#8]
    cmdDecrypt cX .lenient (staged cX b k0) =
      (staged cX b k0).settled [] (abcde ++ [0x03#8, 0x03#8, 0x02#8]) 0x12#8 := by decide

/-- ERR-11: an illegal word leaves the key. -/
theorem test_illegal_word : cmdWord cX 0x06#8 (staged cX abcde k0) = (staged cX abcde k0).settled k0 [] 0x15#8 := by decide

/-- 95_test_vectors.md section 9, BS = 1. -/
theorem test_encrypt_bs_one :
    let c : Config := { BS := 1, MAXLEN := 8, KEYMAX := 16, prim := tXork 1, bs_pos := by decide, bs_le := by decide,
                        maxlen_pos := by decide, maxlen_mul := by decide, keymax_pos := by decide }
    (cmdEncrypt c (staged c [0x41#8, 0x42#8] [0x5A#8])).OUT = [0x1B#8, 0x03#8, 0x58#8] := by decide

/-! ### The machine -/

/-- The first instruction after reset, for a word of each row of the table. -/
theorem test_first_instruction :
    step (State.reset.withFetchWord 8 0) = exec .pad State.reset ∧
    step (State.reset.withFetchWord 8 5) = exec (.unpad .lenient) State.reset ∧
    step (State.reset.withFetchWord 8 2) = exec .encrypt State.reset ∧
    step (State.reset.withFetchWord 8 7) = exec (.decrypt .lenient) State.reset := ⟨rfl, rfl, rfl, rfl⟩

/-- A DECRYPT straight after reset is InvalidInputLength (70_reset_and_hazards.md R202). -/
theorem test_decrypt_after_reset :
    (nextOf (step (State.reset.withFetchWord 8 3))).map (fun t => (t.engine.STATUS, t.script)) =
      some (0x11#8, []) := by decide

/-! ### Host scripts -/

/-- Program 1 of 95_test_vectors.md section 10, first lines, and its encoding. -/
theorem test_read_script :
    (readScript "LOAD_IN  \"ABCDE\"   ; plaintext\n\nLOAD_KEY 01 23\nENCRYPT\nEXPECT STATUS  = 0x10\nMOVE_OUT_IN\nDECRYPT.L\nCMD 0x06".toList) =
      some [.loadIn abcde, .loadKey [0x01#8, 0x23#8], .command .encrypt, .expect .STATUS (.word 0x10#8), .moveOutIn,
        .command (.decrypt .lenient), .cmd 0x06#8] := by decide
theorem test_script_encoding :
    scriptEncoding [.loadIn abcde, .loadKey k0, .command .encrypt, .moveOutIn, .command (.decrypt .strict)] =
      [0x02#8, 0x03#8] := by decide
/-- The blanks of log 14. -/
theorem test_read_blanks : readScript "LOAD_IN 414243".toList = none ∧ readScript "LOAD_IN[]".toList = none ∧
    readScript "  LOAD_IN []  \nEXPECT STATUS=0x10".toList = some [.loadIn [], .expect .STATUS (.word 0x10#8)] := by decide
theorem test_read_refuses_unknown_line : readScript "JUMP 0x00".toList = none := by decide

/-! ### Witnesses: for every statement with hypotheses, a concrete case that meets them, clause by clause -/

/-- The machine just reset, with host operations pending. -/
def pending (ops : List HostOp) : State := { State.reset with script := ops }

/-- The machine just reset, with this IN. -/
def withIn (b : Bytes) : State := { State.reset with engine := { State.reset.engine with IN := b } }

theorem witness_DecodeIsTheTotalFunctionOfTheSpec :
    (0x08#8).extractLsb' 3 5 ≠ 0#5 ∧
    ((0x04#8).extractLsb' 3 5 = 0#5 ∧ (0x04#8).getLsbD 2 = true ∧ (0x04#8).extractLsb' 0 2 = 0#2) ∧
    ((0x06#8).extractLsb' 3 5 = 0#5 ∧ (0x06#8).getLsbD 2 = true ∧ (0x06#8).extractLsb' 0 2 = 2#2) ∧
    ((0x00#8).extractLsb' 3 5 = 0#5 ∧ (0x00#8).getLsbD 2 = false ∧ (0x00#8).extractLsb' 0 2 = 0#2) ∧
    ((0x05#8).extractLsb' 3 5 = 0#5 ∧ (0x05#8).extractLsb' 0 2 = 1#2) ∧
    ((0x02#8).extractLsb' 3 5 = 0#5 ∧ (0x02#8).getLsbD 2 = false ∧ (0x02#8).extractLsb' 0 2 = 2#2) ∧
    ((0x07#8).extractLsb' 3 5 = 0#5 ∧ (0x07#8).extractLsb' 0 2 = 3#2) := by decide

theorem witness_StepRunsTheDecodedCommand :
    (pending [.cmd 0x07#8]).script = .cmd 0x07#8 :: [] ∧ decode 0x07#8 = .ok (.decrypt .lenient) := ⟨rfl, by decide⟩

theorem witness_StepPerformsTheNextHostOperation : (pending [.readOut, .reset]).script = .readOut :: [.reset] := rfl

theorem witness_PlacedWordRunsNext : 7 < 256 ∧ decode (BitVec.ofNat 8 7) = .ok (.decrypt .lenient) := by decide

theorem witness_IllegalWordIsReportedAndTouchesNothingElse :
    decode 0x04#8 = .error .policyWithoutCheck ∧ decode 0xFF#8 = .error .reservedBits := by decide

theorem witness_IdleStepKeepsTheState : State.reset.script = [] := rfl

/-- At the boundary on both sides. -/
theorem witness_LoadInReplacesInAndNothingElse :
    (List.replicate Config.machine.MAXLEN 0#8 : Bytes).length ≤ Config.machine.MAXLEN ∧
    Config.machine.MAXLEN < (List.replicate (Config.machine.MAXLEN + 1) 0#8 : Bytes).length := by simp

theorem witness_LoadKeyReplacesKeyAndNothingElse :
    (List.replicate Config.machine.KEYMAX 0#8 : Bytes).length ≤ Config.machine.KEYMAX ∧
    Config.machine.KEYMAX < (List.replicate (Config.machine.KEYMAX + 1) 0#8 : Bytes).length := by simp

/-- A full OUT. -/
theorem witness_MoveOutInReadsOutAndThenLoadsIt :
    let s : State := { pending [.moveOutIn] with
      engine := { State.reset.engine with OUT := List.replicate Config.machine.MAXLEN 0#8 } }
    s.script = .moveOutIn :: [] ∧ s.engine.OUT.length ≤ Config.machine.MAXLEN := by simp [pending]

/-- For the clauses on IN, OUT and the transient slots a read, for the clause on KEY also a PAD. -/
theorem witness_EachRegisterIsWrittenOnlyByItsWriters :
    ((pending [.readOut]).script = .readOut :: [] ∧ (∃ t, step (pending [.readOut]) = .next t) ∧
      (∀ b, HostOp.readOut ≠ .loadIn b) ∧ (∀ k, HostOp.readOut ≠ .loadKey k) ∧ HostOp.readOut ≠ .reset ∧
      (∀ w, HostOp.readOut ≠ .cmd w)) ∧
    ((pending [.cmd 0x00#8]).script = .cmd 0x00#8 :: [] ∧ (∃ t, step (pending [.cmd 0x00#8]) = .next t) ∧
      (∀ w, HostOp.cmd 0x00#8 = .cmd w → decode w ≠ .ok .encrypt ∧ ∀ l, decode w ≠ .ok (.decrypt l))) := by
  refine ⟨⟨rfl, ⟨_, rfl⟩, ?_⟩, rfl, ⟨_, rfl⟩, ?_⟩
  · simp
  · rintro w h
    cases h
    exact ⟨by decide, fun l => by cases l <;> decide⟩

theorem witness_StepConsumesOneHostOperation :
    (pending [.moveOutIn]).script = .moveOutIn :: [] ∧ (∃ t, step (pending [.moveOutIn]) = .next t) :=
  ⟨rfl, _, rfl⟩

/-- Below and at the capacity. -/
theorem witness_PadDeliversThePaddedBufferOrCapacityExceeded :
    (withIn []).engine.IN.length ≤ Config.machine.MAXLEN ∧
    (withIn (List.replicate Config.machine.MAXLEN 0#8)).engine.IN.length ≤ Config.machine.MAXLEN := by simp [withIn]

theorem witness_EncryptDeliversCbcEncOfThePaddedInput :
    (withIn abcde).engine.IN.length ≤ Config.machine.MAXLEN ∧
    (withIn (List.replicate Config.machine.MAXLEN 0#8)).engine.IN.length ≤ Config.machine.MAXLEN := by
  refine ⟨?_, by simp [withIn]⟩
  show 5 ≤ 8 * (Config.moreBlocks + 1)
  omega

/-- One Block of padding, encrypted by whatever primitive is attached. -/
theorem witness_DecryptDeliversWhatStripGivesOfCbcDec (ks : KeySchedule) :
    ∃ s : State, s.engine.IN.length % Config.machine.BS = 0 ∧
      (unpadCheck Config.machine.BS (cbcDec Config.machine ks s.engine.IN)).2 = true := by
  let x : Block 8 := ⟨List.replicate 8 0x08#8, rfl⟩
  have hx : xorBlock (decryptBlock Config.machine ks (encryptBlock Config.machine ks x)) (zeroBlock 8) = x := by
    rw [show decryptBlock Config.machine ks (encryptBlock Config.machine ks x) = x from
      Equiv.symm_apply_apply _ _]
    decide
  refine ⟨withIn (encryptBlock Config.machine ks x).1, ?_, ?_⟩
  · show (encryptBlock Config.machine ks x).1.length % 8 = 0
    rw [(encryptBlock Config.machine ks x).2]
    rfl
  · have hd : cbcDec Config.machine ks (encryptBlock Config.machine ks x).1 = x.1 := by
      have hb := blocksOf_joinBlocks (bs := 8) (by decide) [encryptBlock Config.machine ks x]
      rw [joinBlocks_cons, joinBlocks_nil, List.append_nil] at hb
      show joinBlocks (decBlocks Config.machine ks (zeroBlock 8) (blocksOf 8 _)) = x.1
      rw [hb, decBlocks_cons, decBlocks_nil, joinBlocks_cons, joinBlocks_nil, List.append_nil]
      exact congrArg Subtype.val hx
    show (unpadCheck 8 (cbcDec Config.machine ks (encryptBlock Config.machine ks x).1)).2 = true
    rw [hd]
    decide

theorem witness_MachineIsTheEngineOfItsConfiguration :
    (pending [.cmd 0x02#8]).script = .cmd 0x02#8 :: [] ∧ HostOp.cmd 0x02#8 ≠ .moveOutIn := ⟨rfl, by decide⟩

theorem witness_PadCountIsOneToBlocksize : 1 ≤ 1 ∧ 1 ≤ 255 ∧ 255 ≤ 255 := by decide

theorem witness_PaddedBufferLaws :
    abcdefgh.length % cX.BS = 0 ∧ (5 ≤ 5 ∧ 5 < (padBytes cX.BS abcde).length) ∧
    (5 ≤ 7 ∧ 7 < (padBytes cX.BS abcde).length) ∧ padBytes cX.BS abcde = padBytes cX.BS abcde := by decide

/-- A good footer, and the last byte at both ends outside 1..BS. -/
theorem witness_UnpadCheckAcceptsExactlyAFooter :
    ((abcde ++ [0x03#8, 0x03#8, 0x03#8]).length % cX.BS = 0 ∧
      (abcde ++ [0x03#8, 0x03#8, 0x03#8]).getLast? = some 0x03#8) ∧
    ((List.replicate 8 0x00#8 : Bytes).length % cX.BS = 0 ∧ (List.replicate 8 0x00#8 : Bytes).getLast? = some 0x00#8) ∧
    ((List.replicate 8 0x09#8 : Bytes).length % cX.BS = 0 ∧
      (List.replicate 8 0x09#8 : Bytes).getLast? = some 0x09#8) := by decide

theorem witness_StripDeliversByPolicy :
    (unpadCheck 8 (abcde ++ [0x03#8, 0x03#8, 0x03#8])).2 = true ∧
    (unpadCheck 8 (abcde ++ [0x03#8, 0x03#8, 0x02#8])).2 = false := by decide

/-- Valid and aligned; valid and not aligned; two buffers that differ before their last Block; a last byte below and
above the range. -/
theorem witness_UnpadCheckInvertsPad :
    ((unpadCheck cX.BS (List.replicate 8 0x01#8)).2 = true ∧ (List.replicate 8 0x01#8 : Bytes).length % cX.BS = 0) ∧
    (unpadCheck cX.BS [0x41#8, 0x01#8]).2 = true ∧
    ((abcdefgh ++ k0).length = (k0 ++ k0).length ∧ abcdefgh ++ k0 ≠ k0 ++ k0 ∧
      (abcdefgh ++ k0).drop ((abcdefgh ++ k0).length - cX.BS) = (k0 ++ k0).drop ((k0 ++ k0).length - cX.BS)) ∧
    ([0x00#8] : Bytes).getLast? = some 0x00#8 ∧ (0x00#8).toNat < 1 ∧
    ([0x09#8] : Bytes).getLast? = some 0x09#8 ∧ cX.BS < (0x09#8).toNat := by decide

/-- The longest input PAD accepts. -/
theorem witness_PadThenUnpadRestoresTheInput :
    (staged cS (List.replicate 15 0#8) k0).IN.length + padCount cS.BS (staged cS (List.replicate 15 0#8) k0).IN.length ≤
      cS.MAXLEN := by decide

theorem witness_XorBlockIsBytewiseWithItsLaws :
    (zeroBlock 8).1[7]? = some 0x00#8 ∧ (⟨abcdefgh, rfl⟩ : Block 8).1[7]? = some 0x48#8 := by decide

theorem witness_EncStepProcessesOneBlock :
    (encStart cR s0 (staged cR abcdefgh k0)).KS = some s0 ∧
    (encStart cR s0 (staged cR abcdefgh k0)).IDX < (encStart cR s0 (staged cR abcdefgh k0)).PBUF.length / cR.BS := by
  decide

theorem witness_DecStepProcessesOneBlock :
    (decStart cR s0 (staged cR enc13 k0)).KS = some s0 ∧
    (decStart cR s0 (staged cR enc13 k0)).IDX < (decStart cR s0 (staged cR enc13 k0)).IN.length / cR.BS := by decide

theorem witness_CbcEncIsTheRecurrenceTheStepsCompute :
    let p := abcdefgh ++ k0
    let e : Engine cR.BS := { Engine.reset cR.BS with PBUF := p, KS := some s0 }
    p.length % cR.BS = 0 ∧ blk cR.BS p 0 = some ⟨abcdefgh, rfl⟩ ∧ blk cR.BS p (0 + 1) = some ⟨k0, rfl⟩ ∧
      e.PBUF = p ∧ e.KS = some s0 ∧ e.CHAIN = zeroBlock cR.BS ∧ e.IDX = 0 ∧ e.OUT = [] := by decide

theorem witness_CbcDecIsTheRecurrenceTheStepsCompute :
    let e : Engine cR.BS := { staged cR enc13 k0 with KS := some s0 }
    enc13.length % cR.BS = 0 ∧ (blk cR.BS enc13 0).isSome = true ∧ (blk cR.BS enc13 (0 + 1)).isSome = true ∧
      e.IN = enc13 ∧ e.KS = some s0 ∧ e.CHAIN = zeroBlock cR.BS ∧ e.IDX = 0 ∧ e.PBUF = [] := by decide

theorem witness_BlockLoopsCountUpToTheBlockCount :
    let e := staged cR abcdefgh k0
    ((stepTrace (encStep cR) (blockCount cR.BS (encStart cR s0 e).PBUF) (encStart cR s0 e))[1]?).isSome = true ∧
    ((stepTrace (decStep cR) (blockCount cR.BS e.IN) (decStart cR s0 e))[0]?).isSome = true ∧
    cR.BS ≤ e.IN.length := by decide

theorem witness_CbcDecAndCbcEncAreInverse : enc13.length % cR.BS = 0 ∧ ([] : Bytes).length % cR.BS = 0 := by decide

/-- The longest plaintext that round-trips. -/
theorem witness_EncryptThenDecryptRestoresThePlaintext :
    (List.replicate 15 0#8 : Bytes).length < cS.MAXLEN ∧ k0.length ≤ cS.KEYMAX ∧ cS.prim.setKey k0 = some s0 := by decide

theorem witness_CiphertextLengthDependsOnThePlaintextLengthOnly :
    (runCmd cX .encrypt (staged cX abcdefgh k0)).STATUS = 0x10#8 ∧
    (staged cX abcdefgh k0).IN.length % cX.BS = 0 := by decide

/-- Two engines that differ in everything but IN and KEY. -/
theorem witness_CommandsDependOnWordInAndKeyOnly :
    let e := staged cX abcde k0
    let e' : Engine cX.BS := { e with OUT := k0, STATUS := 0x15#8, IDX := 3, KS := some s0, PBUF := k0 }
    e.IN = e'.IN ∧ e.KEY = e'.KEY ∧ e ≠ e' := by decide

theorem witness_EqualLeadingPlaintextGivesEqualLeadingCiphertext :
    let P := abcdefgh ++ abcde
    let P' := abcdefgh ++ k0
    (∀ i < 1, blk cR.BS (padBytes cR.BS P) i = blk cR.BS (padBytes cR.BS P') i) ∧
      1 * cR.BS ≤ P.length ∧ 1 * cR.BS ≤ P'.length ∧ P.take (1 * cR.BS) = P'.take (1 * cR.BS) ∧ P ≠ P' := by decide

/-- Block 0 changed (then Block 1 exists), and Block 1 changed (then Block 0 exists). -/
theorem witness_CiphertextDamageStaysInTwoBlocks :
    let a := k0 ++ k0
    let b := abcdefgh ++ k0
    let d := k0 ++ abcdefgh
    (a.length % cR.BS = 0 ∧ a.length = b.length ∧ blk cR.BS a 0 = some ⟨k0, rfl⟩ ∧ blk cR.BS b 0 = some ⟨abcdefgh, rfl⟩ ∧
      (blk cR.BS (cbcDec cR s0 a) (0 + 1)).isSome = true) ∧ (∀ i, i ≠ 0 → blk cR.BS a i = blk cR.BS b i) ∧
    (a.length = d.length ∧ blk cR.BS a 1 = some ⟨k0, rfl⟩ ∧ blk cR.BS d 1 = some ⟨abcdefgh, rfl⟩ ∧
      blk cR.BS a (1 - 1) = some ⟨k0, rfl⟩) ∧ (∀ i, i ≠ 1 → blk cR.BS a i = blk cR.BS d i) := by
  refine ⟨by decide, fun i hi => ?_, by decide, fun i hi => ?_⟩
  · rcases Nat.lt_or_ge i 2 with h | h
    · obtain rfl : i = 1 := by omega
      decide
    · rw [blk_of_ge (show blockCount cR.BS (k0 ++ k0) ≤ i from h),
        blk_of_ge (show blockCount cR.BS (abcdefgh ++ k0) ≤ i from h)]
  · rcases Nat.lt_or_ge i 2 with h | h
    · obtain rfl : i = 0 := by omega
      decide
    · rw [blk_of_ge (show blockCount cR.BS (k0 ++ k0) ≤ i from h),
        blk_of_ge (show blockCount cR.BS (k0 ++ abcdefgh) ≤ i from h)]

/-- Two ciphertexts of three Blocks that differ in the first. -/
theorem witness_PaddingInvalidExactlyWhenTheFooterIsBad :
    let a := k0 ++ enc13
    let b := abcdefgh ++ enc13
    a.length % cR.BS = 0 ∧ a.length = b.length ∧ a ≠ b ∧
      a.drop (a.length - 2 * cR.BS) = b.drop (b.length - 2 * cR.BS) := by decide

/-- Every row of the table of 42_cbc_engine.md R127 is met. -/
theorem witness_PrimitiveCallsPerCommand :
    let err := fun (e : Engine cS.BS) (i : Instr) => statusErr (runCmd cS i e).STATUS
    err (staged cS abcde k0) .encrypt = 0#3 ∧ err (staged cS (List.replicate 16 0#8) k0) .encrypt = 4#3 ∧
      err (staged cS abcde []) .encrypt = 3#3 ∧ err (staged cS enc7 k0) (.decrypt .strict) = 0#3 ∧
      err (staged cS k0 k0) (.decrypt .strict) = 2#3 ∧ err (staged cS abcde k0) (.decrypt .strict) = 1#3 ∧
      err (staged cS enc7 []) (.decrypt .strict) = 3#3 := by decide

theorem witness_EncryptCallReturnsCiphertextOrCode :
    (List.replicate 16 0#8 : Bytes).length ≤ cS.MAXLEN ∧ k0.length ≤ cS.KEYMAX ∧
    abcde.length ≤ cS.MAXLEN ∧ (encryptF cS abcde k0).1 = .ok := by decide

theorem witness_DecryptCallReturnsPlaintextOrCode :
    (List.replicate 16 0#8 : Bytes).length ≤ cS.MAXLEN ∧ (List.replicate 16 0#8 : Bytes).length ≤ cS.KEYMAX := by decide

theorem witness_ErrorsLeaveNoPartialOutput :
    let e := cmdWord cS 0x03#8 (staged cS k0 k0)
    statusErr e.STATUS ≠ 0#3 ∧ ¬ (statusErr e.STATUS = CmdOutcome.paddingInvalid.code ∧
      (decode 0x03#8 = .ok (.unpad .lenient) ∨ decode 0x03#8 = .ok (.decrypt .lenient))) := by decide

theorem witness_LenientPolicyDeliversTheUnstrippedBuffer :
    let e := staged cX (List.replicate 8 0#8) k0
    e.IN.length ≠ 0 ∧ e.IN.length % cX.BS = 0 ∧ (unpadCheck cX.BS e.IN).2 = false ∧
      cX.prim.setKey e.KEY = some s0 ∧ (unpadCheck cX.BS (cbcDec cX s0 e.IN)).2 = false := by decide

/-- A word of each clause: ENCRYPT, DECRYPT.L, UNPAD, and an illegal one. -/
theorem witness_EveryCommandEndsWithTheCleanup :
    decode 0x02#8 = .ok .encrypt ∧ decode 0x07#8 = .ok (.decrypt .lenient) ∧
    (∀ w ∈ [0x01#8, 0x06#8], ¬ (decode w = .ok .encrypt ∨ ∃ l, decode w = .ok (.decrypt l))) := by
  refine ⟨by decide, by decide, ?_⟩
  rintro w hw (h | ⟨l, h⟩)
  · fin_cases hw <;> exact absurd h (by decide)
  · fin_cases hw <;> cases l <;> exact absurd h (by decide)

theorem witness_EveryStepKeepsTheInvariant :
    (pending [.cmd 0x03#8]).Inv ∧ ∃ t, step (pending [.cmd 0x03#8]) = .next t :=
  ⟨⟨by simp [Memory.wf, pending], ⟨rfl, rfl, rfl, rfl, rfl⟩, by decide⟩, _, rfl⟩

/-- A host that loads full buffers. -/
theorem witness_HostsWhoseLoadsFitAreNeverStopped :
    let s := pending [.loadIn (List.replicate Config.machine.MAXLEN 0#8), .cmd 0x02#8, .moveOutIn]
    s.Inv ∧ ∀ op ∈ s.script, op.wf Config.machine = true :=
  ⟨⟨by simp [Memory.wf, pending], ⟨rfl, rfl, rfl, rfl, rfl⟩, by decide⟩, by simp [pending, HostOp.wf]⟩

/-- Two machines whose IN and KEY differ in content, not in length. -/
theorem witness_HostCannotReadInKeyOrTransientState :
    let s : State := { pending [.readInLen] with engine := { State.reset.engine with IN := [0x41#8], KEY := [0x01#8] } }
    let s' : State := { pending [.readInLen] with engine := { State.reset.engine with IN := [0x42#8], KEY := [0x02#8] } }
    s.script = .readInLen :: [] ∧ s'.script = .readInLen :: [] ∧ s.seen = s'.seen ∧
      s.engine.observable = s'.engine.observable ∧ (∀ w, HostOp.readInLen ≠ .cmd w) ∧ (∃ t, step s = .next t) ∧
      s.engine ≠ s'.engine := by
  refine ⟨rfl, rfl, rfl, rfl, by simp, ⟨_, rfl⟩, ?_⟩
  intro h
  exact absurd (congrArg Engine.IN h) (by decide)

/-- Both buffers full. -/
theorem witness_LengthRegistersHoldTheLengthsInLenwBits :
    (let e : Engine cS.BS := { staged cS (List.replicate 16 0#8) k0 with OUT := List.replicate 16 0#8 }
     Memory.wf cS e) ∧
    Memory.wf Config.machine { State.reset.engine with
      IN := List.replicate Config.machine.MAXLEN 0#8, OUT := List.replicate Config.machine.MAXLEN 0#8 } :=
  ⟨by decide, by simp [Memory.wf]⟩

/-- The longest input that fits once padded, and a full one for DECRYPT; each loop takes a step. -/
theorem witness_BlockIndexFitsTheBitsItNeeds :
    let e := staged cS (List.replicate 15 0#8) k0
    let d := staged cS (List.replicate 16 0#8) k0
    e.IN.length + padCount cS.BS e.IN.length ≤ cS.MAXLEN ∧ d.IN.length ≤ cS.MAXLEN ∧
      (stepTrace (encStep cS) (blockCount cS.BS (encStart cS s0 e).PBUF) (encStart cS s0 e)).length = 2 ∧
      (stepTrace (decStep cS) (blockCount cS.BS d.IN) (decStart cS s0 d)).length = 2 := by decide

/-- LENW for MAXLEN = 64 is 7 bits, and IDX for 8 Blocks needs 4, by the formulas of 00_scope.md R8 and 10_state.md R29. -/
theorem test_register_widths : lenWidth cX = 7 ∧ idxWidth cX = 4 := by decide

/-- The round trip, with the longest plaintext allowed and the key loaded twice. -/
theorem witness_HostMeetingItsDutiesIsKeyedAndWithinCapacity :
    let before : List HostOp := [.loadIn (List.replicate 15 0#8), .loadKey k0, .cmd 0x02#8, .moveOutIn, .loadKey k0]
    meetsDuties cS none (before ++ [.cmd 0x03#8]) (staged cS [] []) = true ∧
      decode 0x03#8 = .ok (.decrypt .strict) := by decide

theorem witness_StatusTellsWhatOutAloneCannot : cR.prim.setKey k0 = some s0 := by decide

/-- R158: the key is staged every time, and a full IN is not encrypted. -/
theorem test_duties_refuse_consumed_key_and_full_input :
    meetsDuties cX none [.loadIn abcde, .loadKey k0, .cmd 0x02#8, .cmd 0x02#8] (staged cX [] []) = false ∧
    meetsDuties cS none [.loadIn (List.replicate 16 0#8), .loadKey k0, .cmd 0x02#8] (staged cS [] []) = false := by decide

end Sys2Proof.Tests
end

section
/-! SUPPORT. The widths and the registers IN_LEN and OUT_LEN (00_scope.md R8, 10_state.md R23), the host reads of them
(43_primitive_and_host_interface.md R155), and the statement they settle. -/

namespace Sys2Proof.Machine

/-- The width made for `m` is the least that holds every number up to `m`. -/
theorem ceilLog2_succ_le_iff {m k : Nat} : ceilLog2 (m + 1) ≤ k ↔ ∀ n ≤ m, n < 2 ^ k :=
  ceilLog2_le_iff.trans ⟨fun h _ hn => (Nat.lt_succ_of_le hn).trans_le h, fun h => h m (Nat.le_refl m)⟩

/-- IN_LEN does not wrap on an IN within capacity. -/
theorem toNat_inLenReg {c : Config} {e : Engine c.BS} (h : e.IN.length ≤ c.MAXLEN) : (inLenReg c e).toNat = inLen e :=
  (BitVec.toNat_ofNat _ _).trans (Nat.mod_eq_of_lt (lt_two_pow_ceilLog2 h))

/-- OUT_LEN does not wrap on an OUT within capacity. -/
theorem toNat_outLenReg {c : Config} {e : Engine c.BS} (h : e.OUT.length ≤ c.MAXLEN) :
    (outLenReg c e).toNat = outLen e :=
  (BitVec.toNat_ofNat _ _).trans (Nat.mod_eq_of_lt (lt_two_pow_ceilLog2 h))

theorem hostOp_readInLen (s : State) : hostOp .readInLen s = .next (s.returning (.number (inLen s.engine))) := rfl

theorem hostOp_readOutLen (s : State) : hostOp .readOutLen s = .next (s.returning (.number (outLen s.engine))) := rfl

/-- Settles O57: LENW is the least width by the law of `ceilLog2`, so a length within capacity does not wrap in its
register, and the value a read returns, the length itself, is what the register holds. -/
theorem lengthRegistersHoldTheLengthsInLenwBits : Obligations.LengthRegistersHoldTheLengthsInLenwBits := by
  refine ⟨fun c k => ceilLog2_succ_le_iff, fun c e hwf => ?_, fun s hwf => ?_⟩
  · obtain ⟨hin, -, hout, -⟩ := hwf
    exact ⟨toNat_inLenReg hin, toNat_outLenReg hout⟩
  · obtain ⟨hin, -, hout, -⟩ := hwf
    rw [toNat_inLenReg hin, toNat_outLenReg hout]
    exact ⟨hostOp_readInLen s, hostOp_readOutLen s⟩

end Sys2Proof.Machine
end

section
/-! SUPPORT. The clean-up and the status word after a command (10_state.md R25, R32, R33), for every word: what the frame
of 43_primitive_and_host_interface.md R152 leaves of an engine, and the two statements it settles. -/

namespace Sys2Proof.Machine

/-! ### The fields of a status word -/

@[simp] theorem statusErr_statusWord (v : Bool) (o : CmdOutcome) : statusErr (statusWord v o) = o.code := by
  cases v <;> cases o <;> decide

@[simp] theorem statusValid_statusWord (v : Bool) (o : CmdOutcome) : statusValid (statusWord v o) = v := by
  cases v <;> cases o <;> decide

@[simp] theorem statusDone_statusWord (v : Bool) (o : CmdOutcome) : statusDone (statusWord v o) = true := by
  cases v <;> cases o <;> decide

@[simp] theorem statusTop_statusWord (v : Bool) (o : CmdOutcome) : statusTop (statusWord v o) = 0#3 := by
  cases v <;> cases o <;> decide

/-- OK is the only outcome with code 0 (60_exceptions.md R170). -/
theorem code_eq_zero_iff {o : CmdOutcome} : o.code = 0#3 ↔ o = .ok := by
  cases o <;> decide

/-- VALID is never set beside an error, so a command reports one of seven status words (10_state.md R25). -/
theorem statusWord_validBit_mem (d : Option Instr) (o : CmdOutcome) :
    statusWord (validBit d o) o ∈ [0x10#8, 0x18#8, 0x11#8, 0x12#8, 0x13#8, 0x14#8, 0x15#8] := by
  by_cases ho : o = .ok
  · subst ho
    cases validBit d .ok <;> decide
  · rw [statusWord_of_error d ho]
    cases o <;> decide

/-! ### Which commands empty KEY, and which set VALID -/

theorem consumesKey_iff {d : Option Instr} :
    consumesKey d = true ↔ d = some .encrypt ∨ ∃ l, d = some (.decrypt l) := by
  rcases d with _ | _ | _ | _ | _ <;> simp

theorem validBit_iff {d : Option Instr} {o : CmdOutcome} :
    validBit d o = true ↔ o = .ok ∧ ((∃ l, d = some (.unpad l)) ∨ ∃ l, d = some (.decrypt l)) := by
  rcases d with _ | _ | _ | _ | _ <;> simp [validBit]

theorem decode_toOption_eq_some {w : BitVec 8} {i : Instr} : (decode w).toOption = some i ↔ decode w = .ok i := by
  cases decode w <;> simp [Except.toOption]

/-! ### What a command leaves -/

/-- The engine after a command whose body is done: IN as before, KEY emptied or kept as the command says, every transient
slot idle, and the status word of some outcome. -/
def EndsSettled {bs : Nat} (d : Option Instr) (e e' : Engine bs) : Prop :=
  ∃ out o, e' = e.settled (if consumesKey d then [] else e.KEY) out (statusWord (validBit d o) o)

/-- The frame ends so around every body that does not write IN nor, unless the command consumes it, KEY. -/
theorem runFrame_endsSettled {bs : Nat} (d : Option Instr) (body : Engine bs → Ending bs) (e : Engine bs)
    (hin : ∀ x, (body x).engine.IN = x.IN) (hkey : consumesKey d = false → ∀ x, (body x).engine.KEY = x.KEY) :
    EndsSettled d e (runFrame d body e) := by
  have hk (x : Engine bs) :
      (if consumesKey d then [] else (body x).engine.KEY) = if consumesKey d then [] else x.KEY := by
    cases hd : consumesKey d
    · exact hkey hd x
    · rfl
  have h := runFrame_eq_settled d body e (hin _)
  rw [hk] at h
  exact ⟨_, _, h⟩

theorem padBody_IN (c : Config) (e : Engine c.BS) : (padBody c e).engine.IN = e.IN := by
  unfold padBody
  split <;> rfl

theorem padBody_KEY (c : Config) (e : Engine c.BS) : (padBody c e).engine.KEY = e.KEY := by
  unfold padBody
  split <;> rfl

theorem unpadBody_IN (c : Config) (l : Policy) (e : Engine c.BS) : (unpadBody c l e).engine.IN = e.IN := by
  unfold unpadBody
  split <;> simp

theorem unpadBody_KEY (c : Config) (l : Policy) (e : Engine c.BS) : (unpadBody c l e).engine.KEY = e.KEY := by
  unfold unpadBody
  split <;> simp

theorem encLoop_IN (c : Config) (ks : KeySchedule) (e : Engine c.BS) : (encLoop c (encStart c ks e)).IN = e.IN := by
  obtain ⟨-, -, hin, -⟩ := stepLoop_encStep c ks _ (encStart c ks e) rfl (Nat.zero_add _)
  exact hin

theorem decLoop_IN (c : Config) (ks : KeySchedule) (e : Engine c.BS) : (decLoop c (decStart c ks e)).IN = e.IN := by
  obtain ⟨-, -, hin, -⟩ := stepLoop_decStep c ks _ (decStart c ks e) rfl (Nat.zero_add _)
  exact hin

theorem encryptBody_IN (c : Config) (e : Engine c.BS) : (encryptBody c e).engine.IN = e.IN := by
  unfold encryptBody
  split
  · rfl
  · split
    · rfl
    · exact encLoop_IN c _ e

theorem decryptBody_IN (c : Config) (l : Policy) (e : Engine c.BS) : (decryptBody c l e).engine.IN = e.IN := by
  unfold decryptBody
  split
  · rfl
  · split
    · rfl
    · exact (deliver_IN _ _).trans (decLoop_IN c _ e)

theorem runCmd_endsSettled (c : Config) (i : Instr) (e : Engine c.BS) : EndsSettled (some i) e (runCmd c i e) := by
  cases i with
  | pad => exact runFrame_endsSettled _ _ e (padBody_IN c) fun _ => padBody_KEY c
  | unpad l => exact runFrame_endsSettled _ _ e (unpadBody_IN c l) fun _ => unpadBody_KEY c l
  | encrypt => exact runFrame_endsSettled _ _ e (encryptBody_IN c) (by simp)
  | decrypt l => exact runFrame_endsSettled _ _ e (decryptBody_IN c l) (by simp)

theorem cmdIllegal_endsSettled {bs : Nat} (e : Engine bs) : EndsSettled none e (cmdIllegal e) :=
  runFrame_endsSettled _ _ e (fun _ => rfl) fun _ _ => rfl

/-- What any word leaves of an engine, legal or not. -/
theorem cmdWord_endsSettled (c : Config) (w : BitVec 8) (e : Engine c.BS) :
    EndsSettled (decode w).toOption e (cmdWord c w e) := by
  unfold cmdWord
  split
  · next i h => simpa [h, Except.toOption] using runCmd_endsSettled c i e
  · next h => simpa [h, Except.toOption] using cmdIllegal_endsSettled e

theorem cmdWord_IN (c : Config) (w : BitVec 8) (e : Engine c.BS) : (cmdWord c w e).IN = e.IN := by
  obtain ⟨out, o, h⟩ := cmdWord_endsSettled c w e
  rw [h, Engine.settled_IN]

theorem cmdWord_idle (c : Config) (w : BitVec 8) (e : Engine c.BS) : (cmdWord c w e).Idle := by
  obtain ⟨out, o, h⟩ := cmdWord_endsSettled c w e
  rw [h]
  exact ⟨rfl, rfl, rfl, rfl, rfl⟩

theorem cmdWord_KEY (c : Config) (w : BitVec 8) (e : Engine c.BS) :
    (cmdWord c w e).KEY = if consumesKey (decode w).toOption then [] else e.KEY := by
  obtain ⟨out, o, h⟩ := cmdWord_endsSettled c w e
  rw [h, Engine.settled_KEY]

theorem cmdWord_STATUS (c : Config) (w : BitVec 8) (e : Engine c.BS) :
    ∃ o, (cmdWord c w e).STATUS = statusWord (validBit (decode w).toOption o) o := by
  obtain ⟨out, o, h⟩ := cmdWord_endsSettled c w e
  exact ⟨o, by rw [h, Engine.settled_STATUS]⟩

/-- The words whose command empties KEY, as the statements write them. -/
theorem consumesKey_decode_iff {w : BitVec 8} :
    consumesKey (decode w).toOption = true ↔ decode w = .ok .encrypt ∨ ∃ l, decode w = .ok (.decrypt l) := by
  simp only [consumesKey_iff, decode_toOption_eq_some]

/-- Settles O50: every word, legal or not, leaves a settled engine, whose KEY is empty exactly if the command consumes
it. -/
theorem everyCommandEndsWithTheCleanup : Obligations.EveryCommandEndsWithTheCleanup := by
  intro c w e
  rw [← consumesKey_decode_iff, cmdWord_KEY]
  exact ⟨cmdWord_idle c w e, fun h => if_pos h, fun h => if_neg h, cmdWord_IN c w e⟩

/-- Settles O51: STATUS is the status word of some outcome, whose fields are read off one by one. -/
theorem statusAfterACommand : Obligations.StatusAfterACommand := by
  intro c w e st
  obtain ⟨o, ho⟩ : ∃ o, st = statusWord (validBit (decode w).toOption o) o := cmdWord_STATUS c w e
  rw [ho]
  refine ⟨statusWord_validBit_mem _ o, statusDone_statusWord _ o, statusTop_statusWord _ o, ?_⟩
  simp only [statusValid_statusWord, statusErr_statusWord, code_eq_zero_iff, validBit_iff, decode_toOption_eq_some]

end Sys2Proof.Machine
end

section
/-! SUPPORT. What one host operation can do to the machine (43_primitive_and_host_interface.md R150 to R157): the engine
it leaves, what the host can tell of it, and the statements on writers, reset and observation that it settles. -/

namespace Sys2Proof.Machine

/-! ### Each operation once -/

theorem hLoadIn_eq_next {b : Bytes} {s t : State} :
    hLoadIn b s = .next t ↔
      b.length ≤ Config.machine.MAXLEN ∧ t = { s with engine := { s.engine with IN := b } } := by
  unfold hLoadIn
  rcases loadIn_cases Config.machine b s.engine with ⟨hb, h⟩ | ⟨hb, h⟩
  · simp only [h, Host.Outcome.next.injEq, hb, true_and, eq_comm]
  · simp only [h, reduceCtorEq, Nat.not_le.mpr hb, false_and]

theorem hLoadKey_eq_next {k : Bytes} {s t : State} :
    hLoadKey k s = .next t ↔
      k.length ≤ Config.machine.KEYMAX ∧ t = { s with engine := { s.engine with KEY := k } } := by
  unfold hLoadKey
  rcases loadKey_cases Config.machine k s.engine with ⟨hk, h⟩ | ⟨hk, h⟩
  · simp only [h, Host.Outcome.next.injEq, hk, true_and, eq_comm]
  · simp only [h, reduceCtorEq, Nat.not_le.mpr hk, false_and]

/-- H_CMD on the machine is the word's command on its engine. -/
theorem hCmd_eq_onEngine_cmdWord (w : BitVec 8) (s : State) :
    hCmd w s = .next (s.onEngine (cmdWord Config.machine w)) := by
  unfold hCmd
  split
  · next i h =>
    have hw : s.onEngine (cmdWord Config.machine w) = s.onEngine (runCmd Config.machine i) := by
      simp [State.onEngine, cmdWord, h]
    rw [hw]
    cases i <;> rfl
  · next h => simp [State.onEngine, cmdWord, h]

/-- The operations that write no slot of the engine: the reads, and MOVE_OUT_IN before the load it expands to. -/
def ReadsOnly (op : HostOp) : Prop :=
  op ∈ [.readStatus, .readOut, .readOutLen, .readInLen, .readKeyLen, .moveOutIn]

/-- Everything a host operation can do to the engine. -/
theorem hostOp_engine_cases {op : HostOp} {s t : State} (h : hostOp op s = .next t) :
    (∃ b, op = .loadIn b ∧ t.engine = { s.engine with IN := b }) ∨
    (∃ k, op = .loadKey k ∧ t.engine = { s.engine with KEY := k }) ∨
    (∃ w, op = .cmd w ∧ t.engine = cmdWord Config.machine w s.engine) ∨
    (op = .reset ∧ t.engine = Engine.reset Config.machine.BS) ∨
    (ReadsOnly op ∧ t.engine = s.engine) := by
  cases op with
  | loadIn b =>
    obtain ⟨-, rfl⟩ := hLoadIn_eq_next.mp h
    exact .inl ⟨b, rfl, rfl⟩
  | loadKey k =>
    obtain ⟨-, rfl⟩ := hLoadKey_eq_next.mp h
    exact .inr (.inl ⟨k, rfl, rfl⟩)
  | cmd w =>
    cases (hCmd_eq_onEngine_cmdWord w s).symm.trans h
    exact .inr (.inr (.inl ⟨w, rfl, rfl⟩))
  | reset =>
    cases h
    exact .inr (.inr (.inr (.inl ⟨rfl, rfl⟩)))
  | readStatus | readOut | readOutLen | readInLen | readKeyLen | moveOutIn =>
    cases h
    exact .inr (.inr (.inr (.inr ⟨by simp [ReadsOnly], rfl⟩)))

/-- Settles O15: of the operations that write the engine, each writes the slots it is named a writer of. -/
theorem eachRegisterIsWrittenOnlyByItsWriters : Obligations.EachRegisterIsWrittenOnlyByItsWriters := by
  intro s t op rest hs ht
  rw [step_cons hs] at ht
  rcases hostOp_engine_cases ht with ⟨b, rfl, h⟩ | ⟨k, rfl, h⟩ | ⟨w, rfl, h⟩ | ⟨rfl, -⟩ | ⟨-, h⟩
  · simp [h]
  · simp [h]
  · rw [h]
    refine ⟨fun _ _ => cmdWord_IN _ w _, fun _ _ hw => ?_, fun hw => absurd rfl (hw w)⟩
    obtain ⟨henc, hdec⟩ := hw w rfl
    have hk : ¬ consumesKey (decode w).toOption = true := by
      simp [consumesKey_decode_iff, henc, hdec]
    rw [cmdWord_KEY, if_neg hk]
  · simp
  · simp [h]

/-! ### Reset -/

/-- Settles O13: H_RESET puts the power-on engine in place of whatever stood there. -/
theorem resetPutsEverySlotAtItsResetValue : Obligations.ResetPutsEverySlotAtItsResetValue := by
  intro s
  refine ⟨s.onEngine fun _ => Engine.reset Config.machine.BS, rfl, rfl, ?_⟩
  simp [zeroBlock]

theorem reset_idle (bs : Nat) : (Engine.reset bs).Idle := ⟨rfl, rfl, rfl, rfl, rfl⟩

theorem reset_inv (c : Config) : Engine.Inv c (Engine.reset c.BS) :=
  ⟨reset_keeps_wf c, reset_idle c.BS, by simp [reachableStatus]⟩

/-- Settles O52, as the case of this hardware. -/
theorem invariantHoldsAtReset : Obligations.InvariantHoldsAtReset := reset_inv Config.machine

/-! ### What the host can tell (10_state.md R35) -/

theorem observable_eq_iff {bs : Nat} {e e' : Engine bs} :
    e.observable = e'.observable ↔
      e.STATUS = e'.STATUS ∧ e.OUT = e'.OUT ∧ outLen e = outLen e' ∧ inLen e = inLen e' ∧ keyLen e = keyLen e' := by
  simp [Engine.observable]

/-- The host cannot tell the two machines apart, and has the same operations pending. -/
structure State.Indistinguishable (s s' : State) : Prop where
  seen : s.seen = s'.seen
  script : s.script = s'.script
  observable : s.engine.observable = s'.engine.observable

/-- A read that returns the same on both machines leaves them indistinguishable. -/
theorem State.Indistinguishable.returning {s s' : State} (h : s.Indistinguishable s') {v v' : HostValue} (hv : v = v') :
    (s.returning v).Indistinguishable (s'.returning v') :=
  ⟨congrArg₂ List.cons hv h.seen, h.script, h.observable⟩

/-- An operation that is no command acts alike on machines the host cannot tell apart. -/
theorem hostOp_indistinguishable {op : HostOp} {s s' t : State} (h : s.Indistinguishable s') (hop : ∀ w, op ≠ .cmd w)
    (ht : hostOp op s = .next t) : ∃ t', hostOp op s' = .next t' ∧ t.Indistinguishable t' := by
  obtain ⟨hstatus, hout, houtLen, hinLen, hkeyLen⟩ := observable_eq_iff.mp h.observable
  cases op with
  | loadIn b =>
    obtain ⟨hb, rfl⟩ := hLoadIn_eq_next.mp ht
    exact ⟨_, hLoadIn_eq_next.mpr ⟨hb, rfl⟩, h.seen, h.script,
      observable_eq_iff.mpr ⟨hstatus, hout, houtLen, rfl, hkeyLen⟩⟩
  | loadKey k =>
    obtain ⟨hk, rfl⟩ := hLoadKey_eq_next.mp ht
    exact ⟨_, hLoadKey_eq_next.mpr ⟨hk, rfl⟩, h.seen, h.script,
      observable_eq_iff.mpr ⟨hstatus, hout, houtLen, hinLen, rfl⟩⟩
  | cmd w => exact absurd rfl (hop w)
  | readStatus =>
    cases ht
    exact ⟨_, rfl, h.returning (congrArg HostValue.word hstatus)⟩
  | readOut =>
    cases ht
    exact ⟨_, rfl, h.returning (congrArg HostValue.bytes hout)⟩
  | readOutLen =>
    cases ht
    exact ⟨_, rfl, h.returning (congrArg HostValue.number houtLen)⟩
  | readInLen =>
    cases ht
    exact ⟨_, rfl, h.returning (congrArg HostValue.number hinLen)⟩
  | readKeyLen =>
    cases ht
    exact ⟨_, rfl, h.returning (congrArg HostValue.number hkeyLen)⟩
  | reset =>
    cases ht
    exact ⟨_, rfl, h.seen, h.script, rfl⟩
  | moveOutIn =>
    cases ht
    exact ⟨_, rfl, congrArg₂ List.cons (congrArg HostValue.bytes hout) h.seen,
      congrArg₂ List.cons (congrArg HostOp.loadIn hout) h.script, h.observable⟩

/-- Settles O56: the step takes the same operation on both machines, and no operation but a command looks behind what the
host can observe. -/
theorem hostCannotReadInKeyOrTransientState : Obligations.HostCannotReadInKeyOrTransientState := by
  intro s s' t op rest hs hs' hseen hobs hop ht
  rw [step_cons hs] at ht
  have hpopped : State.Indistinguishable { s with script := rest } { s' with script := rest } := ⟨hseen, rfl, hobs⟩
  obtain ⟨t', ht', hsame⟩ := hostOp_indistinguishable hpopped hop ht
  exact ⟨t', (step_cons hs').trans ht', hsame.seen, hsame.script, hsame.observable⟩

end Sys2Proof.Machine
end

section
/-! SUPPORT. The stepwise view of the block loops (42_cbc_engine.md R111, R128): how many steps a loop takes, IDX after
each of them and the width it needs (10_state.md R29), and the two statements they settle. -/

namespace Sys2Proof.Machine

/-! ### Traces of a block step that counts in IDX -/

/-- Where `P` holds and IDX is below `N` the step applies, keeps `P` and raises IDX by one. -/
def CountsTo {bs : Nat} (f : Engine bs → Option (Engine bs)) (P : Engine bs → Prop) (N : Nat) : Prop :=
  ∀ e, P e → e.IDX < N → ∃ e', f e = some e' ∧ P e' ∧ e'.IDX = e.IDX + 1

section
variable {bs : Nat} {f : Engine bs → Option (Engine bs)} {P : Engine bs → Prop} {N : Nat}

theorem stepTrace_succ {n : Nat} {e e' : Engine bs} (h : f e = some e') :
    stepTrace f (n + 1) e = e' :: stepTrace f n e' := by simp [stepTrace, h]

theorem length_stepTrace (hf : CountsTo f P N) {n : Nat} {e : Engine bs} (hP : P e) (hn : e.IDX + n ≤ N) :
    (stepTrace f n e).length = n := by
  induction n generalizing e with
  | zero => rfl
  | succ n ih =>
    obtain ⟨e', he, hP', hidx⟩ := hf e hP (by omega)
    rw [stepTrace_succ he, List.length_cons, ih hP' (by omega)]

theorem stepTrace_IDX (hf : CountsTo f P N) {n : Nat} {e : Engine bs} (hP : P e) (hn : e.IDX + n ≤ N) {k : Nat}
    {t : Engine bs} (ht : (stepTrace f n e)[k]? = some t) : t.IDX = e.IDX + k + 1 := by
  induction n generalizing e k with
  | zero => simp [stepTrace] at ht
  | succ n ih =>
    obtain ⟨e', he, hP', hidx⟩ := hf e hP (by omega)
    rw [stepTrace_succ he] at ht
    cases k with
    | zero =>
      cases ht
      exact hidx
    | succ k =>
      have := ih hP' (by omega) ht
      omega

theorem stepTrace_IDX_le (hf : CountsTo f P N) {n : Nat} {e : Engine bs} (hP : P e) (hn : e.IDX + n ≤ N)
    {t : Engine bs} (ht : t ∈ stepTrace f n e) : t.IDX ≤ N := by
  obtain ⟨k, hk, rfl⟩ := List.mem_iff_getElem.mp ht
  have hidx := stepTrace_IDX hf hP hn (List.getElem?_eq_getElem hk)
  rw [length_stepTrace hf hP hn] at hk
  omega

/-- The loop ends in the last engine of its trace, or where it began if it takes no step. -/
theorem getLast?_cons_stepTrace (f : Engine bs → Option (Engine bs)) (n : Nat) (e : Engine bs) :
    (e :: stepTrace f n e).getLast? = some (stepLoop f n e) := by
  induction n generalizing e with
  | zero => rfl
  | succ n ih =>
    cases he : f e with
    | none => simp [stepTrace, stepLoop, he]
    | some e' => simpa only [stepTrace, stepLoop, he, List.getLast?_cons_cons] using ih e'

theorem getLast?_stepTrace {n : Nat} {e : Engine bs} (h : stepTrace f n e ≠ []) :
    (stepTrace f n e).getLast? = some (stepLoop f n e) := by
  obtain ⟨t, l, ht⟩ := List.exists_cons_of_ne_nil h
  rw [← getLast?_cons_stepTrace, ht, List.getLast?_cons_cons]

end

/-! ### EncStep and DecStep count -/

theorem encStep_countsTo (c : Config) (ks : KeySchedule) (p : Bytes) :
    CountsTo (encStep c) (fun e => e.KS = some ks ∧ e.PBUF = p) (blockCount c.BS p) := by
  rintro e ⟨hks, rfl⟩ hlt
  obtain ⟨q, hq, -⟩ := blk_of_lt hlt
  rcases encStep_cases c e with ⟨_, _, -, -, he⟩ | ⟨h | h, -⟩
  · exact ⟨_, he, ⟨hks, rfl⟩, rfl⟩
  · simp [hks] at h
  · simp [hq] at h

theorem decStep_countsTo (c : Config) (ks : KeySchedule) (ct : Bytes) :
    CountsTo (decStep c) (fun e => e.KS = some ks ∧ e.IN = ct) (blockCount c.BS ct) := by
  rintro e ⟨hks, rfl⟩ hlt
  obtain ⟨q, hq, -⟩ := blk_of_lt hlt
  rcases decStep_cases c e with ⟨_, _, -, -, he⟩ | ⟨h | h, -⟩
  · exact ⟨_, he, ⟨hks, rfl⟩, rfl⟩
  · simp [hks] at h
  · simp [hq] at h

theorem encStart_ready (c : Config) (ks : KeySchedule) (e : Engine c.BS) :
    (encStart c ks e).KS = some ks ∧ (encStart c ks e).PBUF = padBytes c.BS e.IN := ⟨rfl, rfl⟩

theorem decStart_ready (c : Config) (ks : KeySchedule) (e : Engine c.BS) :
    (decStart c ks e).KS = some ks ∧ (decStart c ks e).IN = e.IN := ⟨rfl, rfl⟩

/-! ### The block count of the padded input -/

@[simp] theorem length_padBytes (bs : Nat) (s : Bytes) : (padBytes bs s).length = s.length + padCount bs s.length := by
  simp [padBytes, rep]

/-- Padding completes the last Block or, on an aligned input, adds one (41_padding_codec.md R90). -/
theorem blockCount_padBytes (c : Config) (s : Bytes) : blockCount c.BS (padBytes c.BS s) = s.length / c.BS + 1 := by
  have hpadded : s.length + padCount c.BS s.length = c.BS * (s.length / c.BS + 1) := by
    have hdiv := Nat.div_add_mod s.length c.BS
    have hmod := Nat.mod_lt s.length c.bs_pos
    rw [Nat.mul_add_one]
    unfold padCount
    omega
  rw [blockCount, length_padBytes, hpadded, Nat.mul_div_cancel_left _ c.bs_pos]

/-- Settles O35: both steps count, ENCRYPT's from 0 to the block count of the padded buffer and DECRYPT's to that of
IN. -/
theorem blockLoopsCountUpToTheBlockCount : Obligations.BlockLoopsCountUpToTheBlockCount := by
  intro c ks e te td
  have henc := encStep_countsTo c ks (padBytes c.BS e.IN)
  have hdec := decStep_countsTo c ks e.IN
  have hencStart := encStart_ready c ks e
  have hdecStart := decStart_ready c ks e
  have hte : te.length = e.IN.length / c.BS + 1 :=
    (length_stepTrace henc hencStart (Nat.zero_add _).le).trans (blockCount_padBytes c e.IN)
  have htd : td.length = e.IN.length / c.BS := length_stepTrace hdec hdecStart (Nat.zero_add _).le
  refine ⟨hte, fun k t ht => ?_, getLast?_stepTrace ?_, htd, fun k t ht => ?_, fun hbs => getLast?_stepTrace ?_⟩
  · simpa using stepTrace_IDX henc hencStart (Nat.zero_add _).le ht
  · exact List.ne_nil_of_length_pos (hte ▸ Nat.succ_pos _)
  · simpa using stepTrace_IDX hdec hdecStart (Nat.zero_add _).le ht
  · exact List.ne_nil_of_length_pos (htd ▸ Nat.div_pos hbs c.bs_pos)

/-! ### The width of IDX -/

/-- IDX does not wrap on an index within capacity. -/
theorem toNat_idxReg {c : Config} {e : Engine c.BS} (h : e.IDX ≤ c.MAXLEN / c.BS) : (idxReg c e).toNat = e.IDX :=
  (BitVec.toNat_ofNat _ _).trans (Nat.mod_eq_of_lt (lt_two_pow_ceilLog2 h))

/-- Along a loop that counts to the block count of a buffer within capacity, IDX never wraps. -/
theorem stepTrace_IDX_fits {c : Config} {f : Engine c.BS → Option (Engine c.BS)} {P : Engine c.BS → Prop} {b : Bytes}
    (hf : CountsTo f P (blockCount c.BS b)) (hb : b.length ≤ c.MAXLEN) {e t : Engine c.BS} (hP : P e) (h0 : e.IDX = 0)
    (ht : t ∈ stepTrace f (blockCount c.BS b) e) : t.IDX ≤ c.MAXLEN / c.BS ∧ (idxReg c t).toNat = t.IDX := by
  have hle : t.IDX ≤ c.MAXLEN / c.BS :=
    (stepTrace_IDX_le hf hP (by omega) ht).trans (Nat.div_le_div_right hb)
  exact ⟨hle, toNat_idxReg hle⟩

/-- Settles O58: the width is least by the law of `ceilLog2`, and neither loop counts beyond the Blocks of a buffer within
capacity. -/
theorem blockIndexFitsTheBitsItNeeds : Obligations.BlockIndexFitsTheBitsItNeeds := by
  refine ⟨fun c k => ceilLog2_succ_le_iff, fun c ks e => ⟨fun hin t ht => ?_, fun hin t ht => ?_⟩⟩
  · exact stepTrace_IDX_fits (encStep_countsTo c ks _) ((length_padBytes _ _).trans_le hin)
      (encStart_ready c ks e) rfl ht
  · exact stepTrace_IDX_fits (decStep_countsTo c ks _) hin (decStart_ready c ks e) rfl ht

end Sys2Proof.Machine
end

section
/-! SUPPORT. The storage of the machine under a step (20_memory.md): that OUT never outgrows its capacity, so that every
step keeps the invariant (R50), that no access faults and only an oversized load is refused (R58), that a step is one
whole host operation (R59), and the four statements they settle. -/

namespace Sys2Proof.Machine

/-! ### What a command leaves in OUT is within capacity (10_state.md R22) -/

/-- Strip never delivers more than it was given, under either policy. -/
theorem length_strip_le (bs : Nat) (b : Bytes) (l : Policy) : (strip bs b l).2.length ≤ b.length := by
  unfold strip
  cases hvalid : (unpadCheck bs b).2
  · cases l <;> simp [hvalid]
  · simp [hvalid]

/-- A byte string joined from as many Blocks as a buffer has is no longer than the buffer. -/
theorem length_joinBlocks_le {bs : Nat} {l : List (Block bs)} {s : Bytes} (h : l.length = blockCount bs s) :
    (joinBlocks l).length ≤ s.length := by
  rw [length_joinBlocks, h]
  exact Nat.div_mul_le_self _ _

theorem encLoop_OUT_length_le (c : Config) (ks : KeySchedule) {e : Engine c.BS} (hout : e.OUT = []) :
    (encLoop c (encStart c ks e)).OUT.length ≤ (padBytes c.BS e.IN).length := by
  obtain ⟨h, -⟩ := stepLoop_encStep c ks _ (encStart c ks e) rfl (Nat.zero_add _)
  rw [encLoop, h, encStart_OUT, hout, List.nil_append]
  exact length_joinBlocks_le ((length_encBlocks c ks _ _).trans (length_blocksOf _))

theorem decLoop_PBUF_length_le (c : Config) (ks : KeySchedule) (e : Engine c.BS) :
    (decLoop c (decStart c ks e)).PBUF.length ≤ e.IN.length := by
  obtain ⟨h, -⟩ := stepLoop_decStep c ks _ (decStart c ks e) rfl (Nat.zero_add _)
  rw [decLoop, h, decStart_PBUF, List.nil_append]
  exact length_joinBlocks_le ((length_decBlocks c ks _ _).trans (length_blocksOf _))

/-- The capacity check of PAD and ENCRYPT admits an input only if it still fits once padded. -/
theorem length_padBytes_le {c : Config} {s : Bytes} (h : ¬ exceedsCapacity c s = true) :
    (padBytes c.BS s).length ≤ c.MAXLEN := by
  rw [exceedsCapacity_iff] at h
  rw [length_padBytes]
  omega

section
variable {c : Config} {e : Engine c.BS}

theorem padBody_OUT_length_le (hout : e.OUT = []) : (padBody c e).engine.OUT.length ≤ c.MAXLEN := by
  unfold padBody
  split
  · simp [hout]
  · next hfits => exact length_padBytes_le hfits

theorem unpadBody_OUT_length_le (l : Policy) (hin : e.IN.length ≤ c.MAXLEN) (hout : e.OUT = []) :
    (unpadBody c l e).engine.OUT.length ≤ c.MAXLEN := by
  unfold unpadBody
  split
  · simp [hout]
  · rw [deliver_OUT]
    exact (length_strip_le _ _ l).trans hin

theorem encryptBody_OUT_length_le (hout : e.OUT = []) : (encryptBody c e).engine.OUT.length ≤ c.MAXLEN := by
  unfold encryptBody
  split
  · simp [hout]
  · next hfits =>
    split
    · simp [hout]
    · exact (encLoop_OUT_length_le c _ hout).trans (length_padBytes_le hfits)

theorem decryptBody_OUT_length_le (l : Policy) (hin : e.IN.length ≤ c.MAXLEN) (hout : e.OUT = []) :
    (decryptBody c l e).engine.OUT.length ≤ c.MAXLEN := by
  unfold decryptBody
  split
  · simp [hout]
  · split
    · simp [hout]
    · rw [deliver_OUT]
      exact ((length_strip_le _ _ l).trans (decLoop_PBUF_length_le c _ e)).trans hin

/-- The frame empties OUT before the body runs, so each bound on a body is one on its command. -/
theorem runCmd_OUT_length_le (i : Instr) (hin : e.IN.length ≤ c.MAXLEN) : (runCmd c i e).OUT.length ≤ c.MAXLEN := by
  cases i with
  | pad => exact padBody_OUT_length_le (e := { e with OUT := [] }) rfl
  | unpad l => exact unpadBody_OUT_length_le (e := { e with OUT := [] }) l hin rfl
  | encrypt => exact encryptBody_OUT_length_le (e := { e with OUT := [] }) rfl
  | decrypt l => exact decryptBody_OUT_length_le (e := { e with OUT := [] }) l hin rfl

theorem cmdWord_OUT_length_le (w : BitVec 8) (hin : e.IN.length ≤ c.MAXLEN) :
    (cmdWord c w e).OUT.length ≤ c.MAXLEN := by
  unfold cmdWord
  split
  · exact runCmd_OUT_length_le _ hin
  · exact Nat.zero_le _

/-! ### The invariant -/

theorem cmdWord_keeps_wf (w : BitVec 8) (h : Memory.wf c e) : Memory.wf c (cmdWord c w e) := by
  obtain ⟨hin, hkey, -, -⟩ := h
  obtain ⟨-, -, -, -, hpbuf⟩ := cmdWord_idle c w e
  refine ⟨(cmdWord_IN c w e).symm ▸ hin, ?_, cmdWord_OUT_length_le w hin, by simp [hpbuf]⟩
  rw [cmdWord_KEY]
  split
  · exact Nat.zero_le _
  · exact hkey

/-- A command reports one of the reachable status words other than the reset value (10_state.md R25). -/
theorem cmdWord_STATUS_reachable (c : Config) (w : BitVec 8) (e : Engine c.BS) :
    (cmdWord c w e).STATUS ∈ reachableStatus := by
  obtain ⟨o, ho⟩ := cmdWord_STATUS c w e
  rw [ho]
  exact List.mem_cons_of_mem _ (statusWord_validBit_mem _ o)

/-- Idle slots and a reachable STATUS hold after every command; the capacities are kept. -/
theorem cmdWord_keeps_inv (w : BitVec 8) (h : Memory.wf c e) : Engine.Inv c (cmdWord c w e) :=
  ⟨cmdWord_keeps_wf w h, cmdWord_idle c w e, cmdWord_STATUS_reachable c w e⟩

end

/-- A load that goes on was checked against its capacity, a command settles the engine, and no other operation writes a
slot but the reset. -/
theorem hostOp_keeps_inv {op : HostOp} {s t : State} (hs : s.Inv) (h : hostOp op s = .next t) : t.Inv := by
  obtain ⟨hwf, hidle, hstatus⟩ := hs
  obtain ⟨hin, hkey, hrest⟩ := hwf
  unfold State.Inv
  rcases hostOp_engine_cases h with ⟨b, rfl, ht⟩ | ⟨k, rfl, ht⟩ | ⟨w, rfl, ht⟩ | ⟨rfl, ht⟩ | ⟨-, ht⟩ <;> rw [ht]
  · obtain ⟨hb, -⟩ := hLoadIn_eq_next.mp h
    exact ⟨⟨hb, hkey, hrest⟩, hidle, hstatus⟩
  · obtain ⟨hk, -⟩ := hLoadKey_eq_next.mp h
    exact ⟨⟨hin, hk, hrest⟩, hidle, hstatus⟩
  · exact cmdWord_keeps_inv w ⟨hin, hkey, hrest⟩
  · exact reset_inv Config.machine
  · exact ⟨⟨hin, hkey, hrest⟩, hidle, hstatus⟩

/-- Settles O53: an idle step changes nothing, and any other is a host operation on the same engine. -/
theorem everyStepKeepsTheInvariant : Obligations.EveryStepKeepsTheInvariant := by
  intro s t hs ht
  cases hscript : s.script with
  | nil =>
    cases (step_nil hscript).symm.trans ht
    exact hs
  | cons op rest =>
    rw [step_cons hscript] at ht
    exact hostOp_keeps_inv (s := { s with script := rest }) hs ht

/-! ### Refusals (20_memory.md R58) -/

/-- Everything H_LOAD_IN can do to the machine. -/
theorem hLoadIn_cases (b : Bytes) (s : State) :
    (∃ t, hLoadIn b s = .next t) ∨
      (Config.machine.MAXLEN < b.length ∧ hLoadIn b s = .refused .loadInBeyondCapacity) := by
  unfold hLoadIn
  rcases loadIn_cases Config.machine b s.engine with ⟨-, h⟩ | ⟨hb, h⟩ <;> rw [h]
  · exact .inl ⟨_, rfl⟩
  · exact .inr ⟨hb, rfl⟩

/-- Everything H_LOAD_KEY can do to the machine. -/
theorem hLoadKey_cases (k : Bytes) (s : State) :
    (∃ t, hLoadKey k s = .next t) ∨
      (Config.machine.KEYMAX < k.length ∧ hLoadKey k s = .refused .loadKeyBeyondCapacity) := by
  unfold hLoadKey
  rcases loadKey_cases Config.machine k s.engine with ⟨-, h⟩ | ⟨hk, h⟩ <;> rw [h]
  · exact .inl ⟨_, rfl⟩
  · exact .inr ⟨hk, rfl⟩

/-- A host operation goes on unless it is a load that its buffer cannot hold. -/
theorem hostOp_goes_on_or_refuses_load (op : HostOp) (s : State) :
    (∃ t, hostOp op s = .next t) ∨
    (∃ b, op = .loadIn b ∧ Config.machine.MAXLEN < b.length ∧ hostOp op s = .refused .loadInBeyondCapacity) ∨
    (∃ k, op = .loadKey k ∧ Config.machine.KEYMAX < k.length ∧ hostOp op s = .refused .loadKeyBeyondCapacity) := by
  cases op with
  | loadIn b => exact (hLoadIn_cases b s).imp_right fun h => .inl ⟨b, rfl, h⟩
  | loadKey k => exact (hLoadKey_cases k s).imp_right fun h => .inr ⟨k, rfl, h⟩
  | cmd w => exact .inl ⟨_, hCmd_eq_onEngine_cmdWord w s⟩
  | readStatus | readOut | readOutLen | readInLen | readKeyLen | reset | moveOutIn => exact .inl ⟨_, rfl⟩

/-- Settles O54: an idle step goes on, and any other is refused only where its host operation is. -/
theorem onlyOversizedLoadsAreRefused : Obligations.OnlyOversizedLoadsAreRefused := by
  intro s
  cases hscript : s.script with
  | nil => exact .inl ⟨s, step_nil hscript⟩
  | cons op rest =>
    rw [step_cons hscript]
    rcases hostOp_goes_on_or_refuses_load op { s with script := rest } with h | ⟨b, rfl, h⟩ | ⟨k, rfl, h⟩
    · exact .inl h
    · exact .inr (.inl ⟨b, rest, rfl, h⟩)
    · exact .inr (.inr ⟨k, rest, rfl, h⟩)

/-! ### One whole host operation a step (20_memory.md R59) -/

/-- Settles O6. -/
theorem stepPerformsTheNextHostOperation : Obligations.StepPerformsTheNextHostOperation :=
  fun _ _ _ => step_cons

/-- What a host operation can do to the host's side: only MOVE_OUT_IN leaves another operation pending, the load it
stands for (43_primitive_and_host_interface.md R162), and no operation returns more than one value. -/
theorem hostOp_hostSide {op : HostOp} {s t : State} (h : hostOp op s = .next t) :
    t.script = (if op = .moveOutIn then .loadIn s.engine.OUT :: s.script else s.script) ∧
      ∃ l, l.length ≤ 1 ∧ t.seen = l ++ s.seen := by
  cases op with
  | loadIn b =>
    obtain ⟨-, rfl⟩ := hLoadIn_eq_next.mp h
    exact ⟨rfl, [], Nat.zero_le 1, rfl⟩
  | loadKey k =>
    obtain ⟨-, rfl⟩ := hLoadKey_eq_next.mp h
    exact ⟨rfl, [], Nat.zero_le 1, rfl⟩
  | cmd w =>
    cases (hCmd_eq_onEngine_cmdWord w s).symm.trans h
    exact ⟨rfl, [], Nat.zero_le 1, rfl⟩
  | reset =>
    cases h
    exact ⟨rfl, [], Nat.zero_le 1, rfl⟩
  | readStatus | readOut | readOutLen | readInLen | readKeyLen | moveOutIn =>
    cases h
    exact ⟨rfl, [_], Nat.le_refl 1, rfl⟩

/-- Settles O16: the step is one host operation on the state with it taken off the list. -/
theorem stepConsumesOneHostOperation : Obligations.StepConsumesOneHostOperation := by
  intro s t op rest hs ht
  rw [step_cons hs] at ht
  exact hostOp_hostSide (s := { s with script := rest }) ht

end Sys2Proof.Machine
end

section
/-! SUPPORT. The encoding (30_encoding.md): a word and its fields are the same data, decode answers a command exactly on
the word with that command's fields, and the five statements these settle. -/

namespace Sys2Proof

/-! ### A word is its fields (30_encoding.md R70) -/

@[simp] theorem CmdFields.ofWord_toWord (f : CmdFields) : ofWord f.toWord = f := by
  have hOP : f.toWord.extractLsb' 0 2 = f.OP := BitVec.extractLsb'_append_eq_right
  have hL : f.toWord.getLsbD 2 = f.L := by
    rw [toWord, BitVec.getLsbD_append, BitVec.getLsbD_append]
    simp
  have hRSV : f.toWord.extractLsb' 3 5 = f.RSV :=
    (BitVec.extractLsb'_append_eq_of_le (by decide)).trans BitVec.extractLsb'_append_eq_left
  rw [ofWord, hOP, hL, hRSV]

@[simp] theorem CmdFields.toWord_ofWord (w : BitVec 8) : (ofWord w).toWord = w := by
  have hL : BitVec.ofBool (w.getLsbD 2) = w.extractLsb' 2 1 := by
    ext i hi
    obtain rfl : i = 0 := by omega
    simp only [BitVec.getElem_ofBool, BitVec.getElem_extractLsb', Nat.add_zero]
  calc (ofWord w).toWord
      = w.extractLsb' 3 5 ++ w.extractLsb' 2 1 ++ w.extractLsb' 0 2 := by rw [← hL]; rfl
    _ = w.extractLsb' 0 8 := by
      rw [BitVec.extractLsb'_append_extractLsb'_eq_extractLsb' (start₁ := 2) (start₂ := 3) rfl,
        BitVec.extractLsb'_append_extractLsb'_eq_extractLsb' (start₁ := 0) (start₂ := 2) rfl]
    _ = w := BitVec.extractLsb'_eq_self

/-- The mask 0xFB of UNPAD and DECRYPT clears `L` and keeps the other fields (30_encoding.md R75). -/
theorem CmdFields.ofWord_and_0xFB (w : BitVec 8) : ofWord (w &&& 0xFB#8) = { ofWord w with L := false } := by
  have hOP : (w &&& 0xFB#8).extractLsb' 0 2 = w.extractLsb' 0 2 :=
    BitVec.extractLsb'_and.trans BitVec.and_allOnes
  have hL : (w &&& 0xFB#8).getLsbD 2 = false := (BitVec.getLsbD_and ..).trans (Bool.and_false _)
  have hRSV : (w &&& 0xFB#8).extractLsb' 3 5 = w.extractLsb' 3 5 :=
    BitVec.extractLsb'_and.trans BitVec.and_allOnes
  rw [ofWord, hOP, hL, hRSV, ofWord]

@[simp] theorem bitOfPolicy_policyOfBit (l : Bool) : bitOfPolicy (policyOfBit l) = l := by cases l <;> rfl

/-! ### Decode (30_encoding.md R78) -/

section
variable {w : BitVec 8} {i : Instr}

theorem decode_of_reservedBits (hRSV : (CmdFields.ofWord w).RSV ≠ 0#5) : decode w = .error .reservedBits :=
  if_pos hRSV

theorem decode_of_policyWithoutCheck (hRSV : (CmdFields.ofWord w).RSV = 0#5) (hL : (CmdFields.ofWord w).L = true)
    (hOP : (CmdFields.ofWord w).OP = 0#2 ∨ (CmdFields.ofWord w).OP = 2#2) : decode w = .error .policyWithoutCheck :=
  (if_neg (not_not_intro hRSV)).trans (if_pos ⟨hL, hOP⟩)

/-- Decode answers a command exactly on the word with the command's fields. -/
theorem decode_eq_ok_iff : decode w = .ok i ↔ CmdFields.ofWord w = i.fields := by
  constructor
  · intro h
    unfold decode at h
    generalize CmdFields.ofWord w = f at h ⊢
    obtain ⟨op, l, rsv⟩ := f
    dsimp only at h
    have hOP : op ≠ 0#2 → op ≠ 1#2 → op ≠ 2#2 → op = 3#2 := by bv_omega
    split_ifs at h with hRSV hL h0 h1 h2 <;> cases h
    -- The four branches that answer a command: the conditions passed on the way fix its fields.
    all_goals simp_all [Instr.fields]
  · intro h
    unfold decode
    rw [h]
    cases i with
    | pad | encrypt => rfl
    | unpad l | decrypt l => cases l <;> rfl

/-- Each command has exactly one word. -/
theorem decode_eq_ok_iff_encode : decode w = .ok i ↔ encode i = w :=
  decode_eq_ok_iff.trans
    ⟨fun h => (congrArg CmdFields.toWord h).symm.trans (CmdFields.toWord_ofWord w),
      fun h => h ▸ CmdFields.ofWord_toWord i.fields⟩

end

@[simp] theorem decode_encode (i : Instr) : decode (encode i) = .ok i := decode_eq_ok_iff_encode.mpr rfl

theorem decodeBytes_cons (w : BitVec 8) (rest : Bytes) : decodeBytes (w :: rest) = some (decode w, rest) := rfl

/-- Settles O1. -/
theorem encodedCommandsDecodeBack : Obligations.EncodedCommandsDecodeBack :=
  fun i rest => ⟨decode_encode i, by rw [decodeBytes_cons, decode_encode]⟩

/-- Settles O2: the two illegal clauses are decode's own, and each other clause names the fields of its command. -/
theorem decodeIsTheTotalFunctionOfTheSpec : Obligations.DecodeIsTheTotalFunctionOfTheSpec := by
  intro w
  refine ⟨fun hRSV => ⟨_, decode_of_reservedBits hRSV⟩,
    fun hRSV hL hOP => ⟨_, decode_of_policyWithoutCheck hRSV hL hOP⟩,
    fun hRSV hL hOP => ?_, fun hRSV hOP => ?_, fun hRSV hL hOP => ?_, fun hRSV hOP => ?_⟩ <;>
    rw [decode_eq_ok_iff, CmdFields.ofWord, hRSV, hOP]
  · rw [hL, Instr.fields]
  · exact congrArg (CmdFields.mk 1#2 · 0#5) (bitOfPolicy_policyOfBit _).symm
  · rw [hL, Instr.fields]
  · exact congrArg (CmdFields.mk 3#2 · 0#5) (bitOfPolicy_policyOfBit _).symm

/-- Settles O4: the legal words are those of the encoder, the others each have the field that makes them illegal. -/
theorem writtenOutWordsDecodeAsTheSpecSays : Obligations.WrittenOutWordsDecodeAsTheSpecSays :=
  ⟨decode_encode .pad, decode_encode (.unpad .strict), decode_encode (.unpad .lenient), decode_encode .encrypt,
    decode_encode (.decrypt .strict), decode_encode (.decrypt .lenient),
    decode_of_policyWithoutCheck rfl rfl (.inl rfl), decode_of_policyWithoutCheck rfl rfl (.inr rfl),
    decode_of_reservedBits (by decide), decode_of_reservedBits (by decide)⟩

/-! ### The opcode map (30_encoding.md R75) -/

/-- The six legal words, each with its command. -/
def opcodeMap : List (BitVec 8 × Instr) :=
  [(0x00#8, .pad), (0x01#8, .unpad .strict), (0x05#8, .unpad .lenient), (0x02#8, .encrypt),
    (0x03#8, .decrypt .strict), (0x07#8, .decrypt .lenient)]

theorem decode_eq_ok_iff_mem_opcodeMap {w : BitVec 8} {i : Instr} : decode w = .ok i ↔ (w, i) ∈ opcodeMap := by
  rw [decode_eq_ok_iff_encode, eq_comm]
  cases i with
  | pad | encrypt => simp [opcodeMap, encode, Instr.fields, CmdFields.toWord]
  | unpad l | decrypt l => cases l <;> simp [opcodeMap, encode, Instr.fields, CmdFields.toWord, bitOfPolicy]

/-- A command with no policy is matched on the whole word. -/
theorem and_0xFF_eq_encode_iff {w : BitVec 8} {i : Instr} : w &&& 0xFF#8 = encode i ↔ decode w = .ok i := by
  rw [decode_eq_ok_iff_encode, eq_comm, show w &&& 0xFF#8 = w from BitVec.and_allOnes]

/-- A command with a policy is matched on all fields but `L`, which then tells the policy. -/
theorem and_0xFB_eq_encode_strict_iff {w : BitVec 8} {command : Policy → Instr} {op : BitVec 2}
    (hfields : ∀ l, (command l).fields = { OP := op, L := bitOfPolicy l, RSV := 0#5 }) :
    w &&& 0xFB#8 = encode (command .strict) ↔ ∃ l, decode w = .ok (command l) := by
  have hmatch : w &&& 0xFB#8 = encode (command .strict) ↔
      { CmdFields.ofWord w with L := false } = (command .strict).fields := by
    rw [← CmdFields.ofWord_and_0xFB, ← decode_eq_ok_iff, decode_eq_ok_iff_encode, eq_comm]
  simp only [hmatch, decode_eq_ok_iff, hfields]
  constructor
  · intro h
    injection h with hOP _ hRSV
    exact ⟨policyOfBit (CmdFields.ofWord w).L, by simp [← hOP, ← hRSV]⟩
  · rintro ⟨l, h⟩
    rw [h]
    rfl

theorem decode_isNone_iff {w : BitVec 8} : (decode w).toOption.isNone = true ↔ w ∉ opcodeMap.map Prod.fst := by
  simp [Option.isNone_iff_eq_none, Option.eq_none_iff_forall_ne_some, Machine.decode_toOption_eq_some,
    decode_eq_ok_iff_mem_opcodeMap]

/-- The words that decode to no command are the bytes without the six of the map. -/
theorem toFinset_filter_decode_isNone :
    ((List.range 256).filter fun n => (decode (BitVec.ofNat 8 n)).toOption.isNone).toFinset =
      Finset.range 256 \ {0, 1, 5, 2, 3, 7} := by
  ext n
  simp only [List.mem_toFinset, List.mem_filter, List.mem_range, Finset.mem_sdiff, Finset.mem_range, decode_isNone_iff]
  refine and_congr_right fun hn => ?_
  simp [opcodeMap, ← BitVec.toNat_inj, Nat.mod_eq_of_lt hn]

/-- Settles O3: the map and the masks are read off the encoder, and the count is 256 less the six words of the map. -/
theorem sixLegalWordsAndTheOthersIllegal : Obligations.SixLegalWordsAndTheOthersIllegal := by
  refine ⟨fun w i => decode_eq_ok_iff_mem_opcodeMap, fun w => ⟨and_0xFF_eq_encode_iff (i := .pad),
    and_0xFB_eq_encode_strict_iff (command := .unpad) fun _ => rfl, and_0xFF_eq_encode_iff (i := .encrypt),
    and_0xFB_eq_encode_strict_iff (command := .decrypt) fun _ => rfl⟩, ?_⟩
  rw [← List.toFinset_card_of_nodup (List.nodup_range.filter _), toFinset_filter_decode_isNone,
    Finset.card_sdiff_of_subset (by decide), Finset.card_range]
  rfl

/-! ### The word placed next (log 4, log 15) -/

theorem decodeTableWord_of_decode {w : Nat} {i : Instr} (hw : w < 256) (h : decode (BitVec.ofNat 8 w) = .ok i) :
    decodeTableWord 8 w = some i := by
  simp [decodeTableWord, decodeBytes_cons, hw, h]

end Sys2Proof

namespace Sys2Proof.Machine

/-- H_CMD of a legal word is its command (43_primitive_and_host_interface.md R152). -/
theorem hostOp_cmd_of_decode {w : BitVec 8} {i : Instr} {s : State} (h : decode w = .ok i) :
    hostOp (.cmd w) s = exec i s := by
  simp [hostOp, hCmd, h]

/-- Settles O7: the placed word is the step's host operation, and taking it off again gives the state back. -/
theorem placedWordRunsNext : Obligations.PlacedWordRunsNext := by
  intro s w i hw h
  have hword : BitVec.ofNat 8 (w % 2 ^ 8) = BitVec.ofNat 8 w := congrArg _ (Nat.mod_eq_of_lt hw)
  refine ⟨?_, decodeTableWord_of_decode hw h⟩
  calc step (s.withFetchWord 8 w)
      = hostOp (.cmd (BitVec.ofNat 8 (w % 2 ^ 8))) s := step_cons (State.withFetchWord_script s 8 w)
    _ = exec i s := by rw [hword, hostOp_cmd_of_decode h]

end Sys2Proof.Machine
end

section
/-! SUPPORT. The padding codec on byte strings (41_padding_codec.md R90 to R95): PadCount in 1..BS, Pad, the footers
that UnpadCheck accepts, Strip, and the five statements they settle. -/

namespace Sys2Proof.Machine

/-! ### PadCount (R90) -/

section
variable {bs L n : Nat}

theorem padCount_pos (hbs : 1 ≤ bs) : 1 ≤ padCount bs L := Nat.sub_pos_of_lt (Nat.mod_lt L hbs)

theorem padCount_le : padCount bs L ≤ bs := Nat.sub_le _ _

theorem padCount_eq_iff (hbs : 1 ≤ bs) : padCount bs L = bs ↔ L % bs = 0 := by
  have := Nat.mod_lt L hbs
  unfold padCount
  omega

theorem padCount_of_aligned (h : L % bs = 0) : padCount bs L = bs := by simp [padCount, h]

theorem toNat_countByte (h : n ≤ 255) : (countByte n).toNat = n :=
  (BitVec.toNat_ofNat n 8).trans (Nat.mod_eq_of_lt (by omega))

@[simp] theorem countByte_toNat (x : Byte) : countByte x.toNat = x :=
  (BitVec.ofNat_toNat 8 x).trans x.setWidth_eq

/-- Padding completes the last Block or, on an aligned length, adds one. -/
theorem length_add_padCount (hbs : 1 ≤ bs) : L + padCount bs L = (L / bs + 1) * bs := by
  have hdiv := Nat.div_add_mod' L bs
  have hmod := Nat.mod_lt L hbs
  rw [Nat.succ_mul]
  unfold padCount
  omega

/-- No other number of bytes in 1..BS completes a Block. -/
theorem padCount_of_add_aligned {k : Nat} (h1 : 1 ≤ k) (hk : k ≤ bs) (h : (n + k) % bs = 0) : padCount bs n = k := by
  have hmod : n % bs < bs := Nat.mod_lt n (by omega)
  rw [← Nat.mod_add_mod] at h
  unfold padCount
  rcases Nat.lt_trichotomy (n % bs + k) bs with hlt | heq | hgt
  · rw [Nat.mod_eq_of_lt hlt] at h
    omega
  · omega
  · rw [Nat.mod_eq_sub_mod hgt.le, Nat.mod_eq_of_lt (by omega)] at h
    omega

end

/-- BS fits one byte (00_scope.md R6), so the count byte holds PadCount whole. -/
theorem toNat_countByte_padCount (c : Config) (L : Nat) : (countByte (padCount c.BS L)).toNat = padCount c.BS L :=
  toNat_countByte (padCount_le.trans c.bs_le)

/-- Settles O23. -/
theorem padCountIsOneToBlocksize : Obligations.PadCountIsOneToBlocksize :=
  ⟨fun _ _ hbs => ⟨rfl, padCount_pos hbs, padCount_le, padCount_eq_iff hbs,
    fun hle => toNat_countByte (padCount_le.trans hle)⟩, rfl, rfl, rfl, rfl, rfl⟩

/-! ### Footers (R93) -/

@[simp] theorem length_rep (x : Byte) (n : Nat) : (rep x n).length = n := List.length_replicate

/-- The buffer ends in a footer of `x` bytes `x`, with `x` in 1..BS. -/
structure EndsInFooter (bs : Nat) (b : Bytes) (x : Byte) : Prop where
  pos : 1 ≤ x.toNat
  le : x.toNat ≤ bs
  suffix : rep x x.toNat <:+ b

theorem byteAt_last (b : Bytes) : byteAt b (b.length - 1) = b.getLast? := List.getLast?_eq_getElem?.symm

theorem footerMatches_iff {b : Bytes} {x : Byte} :
    footerMatches b x = true ↔ ∀ j < x.toNat, j < b.length ∧ b[b.length - 1 - j]? = some x := by
  simp [footerMatches, byteAt]

/-- The scan from the end of the buffer succeeds exactly on a suffix of equal bytes. -/
theorem footerMatches_iff_suffix {b : Bytes} {x : Byte} : footerMatches b x = true ↔ rep x x.toNat <:+ b := by
  rw [footerMatches_iff, ← List.reverse_prefix, rep, List.reverse_replicate, List.prefix_iff_getElem?]
  simp only [List.length_replicate, List.getElem_replicate]
  refine forall₂_congr fun j _ => ⟨fun ⟨hj, h⟩ => (List.getElem?_reverse hj).trans h, fun h => ?_⟩
  have hj : j < b.length := by simpa using (List.getElem?_eq_some_iff.mp h).1
  exact ⟨hj, (List.getElem?_reverse hj).symm.trans h⟩

section
variable {bs : Nat} {b b' : Bytes} {x : Byte}

theorem EndsInFooter.length_le (h : EndsInFooter bs b x) : x.toNat ≤ b.length := by
  simpa using h.suffix.length_le

/-- The footer is the whole of what follows the first `|b| - x` bytes. -/
theorem EndsInFooter.take_append (h : EndsInFooter bs b x) : b.take (b.length - x.toNat) ++ rep x x.toNat = b := by
  simpa using List.suffix_iff_eq_append.mp h.suffix

/-- The announcing byte is the last one of its footer. -/
theorem EndsInFooter.getLast? (h : EndsInFooter bs b x) : b.getLast? = some x := by
  have hne : x.toNat ≠ 0 := Nat.one_le_iff_ne_zero.mp h.pos
  rw [← h.take_append, List.getLast?_append, rep, List.getLast?_replicate, if_neg hne, Option.some_or]

theorem paddingValid_iff : paddingValid bs b = true ↔ ∃ x, EndsInFooter bs b x := by
  unfold paddingValid
  rw [byteAt_last]
  constructor
  · intro h
    split at h
    · cases h
    · next x hx =>
      simp only [Bool.and_eq_true, decide_eq_true_eq, footerMatches_iff_suffix] at h
      exact ⟨x, h.1.1, h.1.2, h.2⟩
  · rintro ⟨x, h⟩
    simp [h.getLast?, h.pos, h.le, footerMatches_iff_suffix.mpr h.suffix]

theorem EndsInFooter.unpadCheck_eq (h : EndsInFooter bs b x) : unpadCheck bs b = (b.length - x.toNat, true) := by
  have hcount : lastCount b = x.toNat := by simp [lastCount, byteAt_last, h.getLast?]
  rw [unpadCheck, if_pos (paddingValid_iff.mpr ⟨x, h⟩), hcount]

theorem unpadCheck_of_no_footer (h : ∀ x, ¬ EndsInFooter bs b x) : unpadCheck bs b = (b.length, false) :=
  if_neg fun hv => (paddingValid_iff.mp hv).elim h

/-- A buffer whose last byte announces no footer ends in none. -/
theorem unpadCheck_of_getLast? (hx : b.getLast? = some x) (h : ¬ EndsInFooter bs b x) :
    unpadCheck bs b = (b.length, false) :=
  unpadCheck_of_no_footer fun y hy => by
    cases hx.symm.trans hy.getLast?
    exact h hy

theorem exists_footer_of_valid (h : (unpadCheck bs b).2 = true) : ∃ x, EndsInFooter bs b x := by
  by_contra hno
  rw [unpadCheck_of_no_footer (not_exists.mp hno)] at h
  cases h

/-- UnpadCheck reads nothing of a buffer but its length and its footer. -/
theorem unpadCheck_congr (hlen : b.length = b'.length) (h : ∀ x, EndsInFooter bs b x ↔ EndsInFooter bs b' x) :
    unpadCheck bs b = unpadCheck bs b' := by
  by_cases hx : ∃ x, EndsInFooter bs b x
  · obtain ⟨x, hx⟩ := hx
    rw [hx.unpadCheck_eq, ((h x).mp hx).unpadCheck_eq, hlen]
  · rw [unpadCheck_of_no_footer (not_exists.mp hx),
      unpadCheck_of_no_footer fun x hx' => hx ⟨x, (h x).mpr hx'⟩, hlen]

/-- A footer lies within the last BS bytes. -/
theorem endsInFooter_drop_iff : EndsInFooter bs (b.drop (b.length - bs)) x ↔ EndsInFooter bs b x := by
  constructor
  · rintro ⟨hpos, hle, hsuf⟩
    exact ⟨hpos, hle, hsuf.trans (List.drop_suffix _ b)⟩
  · intro h
    refine ⟨h.pos, h.le, List.suffix_of_suffix_length_le h.suffix (List.drop_suffix _ b) ?_⟩
    have hle := h.le
    have hlen := h.length_le
    rw [length_rep, List.length_drop]
    omega

/-- On a block-aligned buffer every byte of an announced footer exists, so the scan can name its offsets outright. -/
theorem endsInFooter_iff_of_aligned (halign : b.length % bs = 0) (hx : b.getLast? = some x) :
    EndsInFooter bs b x ↔ 1 ≤ x.toNat ∧ x.toNat ≤ bs ∧ ∀ j < x.toNat, b[b.length - 1 - j]? = some x := by
  have hpos : 0 < b.length := List.length_pos_iff.mpr fun h => by simp [h] at hx
  have hbs : bs ≤ b.length := Nat.le_of_dvd hpos (Nat.dvd_of_mod_eq_zero halign)
  constructor
  · rintro ⟨h1, hle, hsuf⟩
    exact ⟨h1, hle, fun j hj => (footerMatches_iff.mp (footerMatches_iff_suffix.mpr hsuf) j hj).2⟩
  · rintro ⟨h1, hle, hall⟩
    exact ⟨h1, hle, footerMatches_iff_suffix.mp (footerMatches_iff.mpr fun j hj => ⟨by omega, hall j hj⟩)⟩

end

/-- Settles O25: the rule's test is that the last byte announces a footer the buffer ends in; sixteen bytes 0x10 announce
one longer than a Block of 8. -/
theorem unpadCheckAcceptsExactlyAFooter : Obligations.UnpadCheckAcceptsExactlyAFooter := by
  refine ⟨fun c b x halign hx => ?_, unpadCheck_of_getLast? (x := 0x10#8) rfl fun h => absurd h.le (by decide)⟩
  have hiff := endsInFooter_iff_of_aligned halign hx
  split
  · next h => exact (hiff.mpr h).unpadCheck_eq
  · next h => exact unpadCheck_of_getLast? hx (mt hiff.mp h)

/-! ### Strip (R94) -/

theorem strip_of_valid {bs : Nat} {b : Bytes} (h : (unpadCheck bs b).2 = true) (l : Policy) :
    strip bs b l = (.ok, b.take (unpadCheck bs b).1) := if_pos h

theorem strip_of_invalid {bs : Nat} {b : Bytes} (h : (unpadCheck bs b).2 = false) (l : Policy) :
    strip bs b l = (.paddingInvalid, if l = .lenient then b else []) := by
  cases l <;> simp [strip, h]

/-- Settles O26. -/
theorem stripDeliversByPolicy : Obligations.StripDeliversByPolicy :=
  fun _ _ l => ⟨fun h => strip_of_valid h l, fun h => strip_of_invalid h .lenient, fun h => strip_of_invalid h .strict⟩

/-! ### Pad (R91, R92), and UnpadCheck after it (R95) -/

theorem take_padBytes (bs : Nat) (s : Bytes) : (padBytes bs s).take s.length = s := List.take_left

theorem getElem?_padBytes {bs k : Nat} {s : Bytes} (hle : s.length ≤ k) (hlt : k < (padBytes bs s).length) :
    (padBytes bs s)[k]? = some (countByte (padCount bs s.length)) := by
  rw [length_padBytes] at hlt
  rw [padBytes, List.getElem?_append_right hle, rep, List.getElem?_replicate, if_pos (by omega)]

section
variable (c : Config) (s : Bytes)

theorem padBytes_endsInFooter : EndsInFooter c.BS (padBytes c.BS s) (countByte (padCount c.BS s.length)) where
  pos := (toNat_countByte_padCount c _).symm ▸ padCount_pos c.bs_pos
  le := (toNat_countByte_padCount c _).symm ▸ padCount_le
  suffix := by
    rw [toNat_countByte_padCount]
    exact List.suffix_append _ _

theorem unpadCheck_padBytes : unpadCheck c.BS (padBytes c.BS s) = (s.length, true) := by
  rw [(padBytes_endsInFooter c s).unpadCheck_eq, toNat_countByte_padCount, length_padBytes, Nat.add_sub_cancel]

theorem strip_padBytes (l : Policy) : strip c.BS (padBytes c.BS s) l = (.ok, s) := by
  have h := unpadCheck_padBytes c s
  rw [strip_of_valid (congrArg Prod.snd h), h, take_padBytes]

theorem length_padBytes_eq_mul : (padBytes c.BS s).length = (s.length / c.BS + 1) * c.BS :=
  (length_padBytes _ _).trans (length_add_padCount c.bs_pos)

/-- Pad loses nothing, because Strip gives its argument back. -/
theorem padBytes_injective : Function.Injective (padBytes c.BS) := by
  intro s t h
  have hstrip := congrArg (strip c.BS · .strict) h
  simp only [strip_padBytes, Prod.mk.injEq, true_and] at hstrip
  exact hstrip

end

/-- Settles O24. -/
theorem paddedBufferLaws : Obligations.PaddedBufferLaws := by
  intro c s
  have hlen := length_padBytes c.BS s
  have hpos : 1 ≤ padCount c.BS s.length := padCount_pos c.bs_pos
  have hle : padCount c.BS s.length ≤ c.BS := padCount_le
  have hfooter := padBytes_endsInFooter c s
  have hmul := length_padBytes_eq_mul c s
  have hempty : padCount c.BS ([] : Bytes).length = c.BS := padCount_of_aligned (Nat.zero_mod _)
  refine ⟨rfl, hlen, hmul ▸ Nat.mul_mod_left _ _, hmul, blockCount_padBytes c s, by omega, by omega,
    fun h => by rw [hlen, padCount_of_aligned h], ?_, take_padBytes c.BS s, fun _ => getElem?_padBytes,
    ⟨_, hfooter.getLast?, toNat_countByte_padCount c _, hfooter.pos, hfooter.le⟩,
    fun _ h => padBytes_injective c h⟩
  rw [padBytes, hempty]
  rfl

section
variable {bs : Nat} {b : Bytes} {x : Byte}

/-- Padding what stays of a footer's buffer puts the footer back exactly if PadCount asks for a footer of that size. -/
theorem EndsInFooter.padBytes_take_eq_iff (h : EndsInFooter bs b x) :
    padBytes bs (b.take (b.length - x.toNat)) = b ↔ x.toNat = padCount bs (b.length - x.toNat) := by
  have hle := h.length_le
  have hlen : (b.take (b.length - x.toNat)).length = b.length - x.toNat := List.length_take_of_le (Nat.sub_le _ _)
  constructor
  · intro heq
    have := congrArg List.length heq
    rw [length_padBytes, hlen] at this
    omega
  · intro hcount
    rw [padBytes, hlen, ← hcount, countByte_toNat, h.take_append]

/-- On a block-aligned buffer it always does. -/
theorem EndsInFooter.eq_padCount_of_aligned (h : EndsInFooter bs b x) (halign : b.length % bs = 0) :
    x.toNat = padCount bs (b.length - x.toNat) :=
  (padCount_of_add_aligned h.pos h.le (by rwa [Nat.sub_add_cancel h.length_le])).symm

end

/-- Settles O27: a valid buffer ends in a footer, of which UnpadCheck tells the size; the laws are those of footers. -/
theorem unpadCheckInvertsPad : Obligations.UnpadCheckInvertsPad := by
  intro c
  refine ⟨fun s l => ⟨unpadCheck_padBytes c s, strip_padBytes c s l⟩, fun b hvalid => ?_, fun b hvalid => ?_, by decide,
    fun b b' hlen hdrop => unpadCheck_congr hlen fun x => ?_, fun b x hx hout => unpadCheck_of_getLast? hx fun h => ?_⟩
  · obtain ⟨x, h⟩ := exists_footer_of_valid hvalid
    have hpos := h.pos
    have hle := h.le
    have hlen := h.length_le
    rw [h.unpadCheck_eq]
    dsimp only
    omega
  · obtain ⟨x, h⟩ := exists_footer_of_valid hvalid
    have hremoved : b.length - (b.length - x.toNat) = x.toNat := Nat.sub_sub_self h.length_le
    rw [h.unpadCheck_eq]
    dsimp only
    rw [hremoved]
    refine ⟨h.padBytes_take_eq_iff, ?_, fun halign => h.padBytes_take_eq_iff.mpr (h.eq_padCount_of_aligned halign)⟩
    have hmod := Nat.mod_lt (b.length - x.toNat) c.bs_pos
    have hle := h.le
    unfold padCount
    omega
  · rw [← endsInFooter_drop_iff, hdrop, endsInFooter_drop_iff]
  · have hpos := h.pos
    have hle := h.le
    omega

end Sys2Proof.Machine
end

section
/-! SUPPORT. The commands PAD and UNPAD (41_padding_codec.md R96, R97) as whole engines, for every configuration, and
their round trip (R98): the three statements they settle. -/

namespace Sys2Proof.Machine

/-- Whatever the outcome, a delivered result is in OUT and no other slot is written. -/
theorem deliver_eq {bs : Nat} (r : CmdOutcome × Bytes) (e : Engine bs) :
    deliver r e = { engine := { e with OUT := r.2 }, outcome := r.1 } := by
  unfold deliver
  split
  · next h => rw [finish, h]
  · rfl

/-- What the frame leaves (43_primitive_and_host_interface.md R152) of a command that keeps KEY, when its body writes OUT
alone. -/
theorem runFrame_of_body_writes_OUT {bs : Nat} {d : Option Instr} {body : Engine bs → Ending bs} {e : Engine bs}
    {out : Bytes} {o : CmdOutcome} {st : BitVec 8}
    (hbody : body { e with OUT := [] } = { engine := { e with OUT := out }, outcome := o })
    (hkey : consumesKey d = false) (hst : statusWord (validBit d o) o = st) :
    runFrame d body e = e.settled e.KEY out st := by
  rw [runFrame_eq_settled d body e (by rw [hbody]), hbody, hkey, hst]
  rfl

section
variable (c : Config) (e : Engine c.BS)

/-- Everything PAD can do (R96). -/
theorem cmdPad_eq :
    cmdPad c e =
      if c.MAXLEN < e.IN.length + padCount c.BS e.IN.length then e.settled e.KEY [] 0x14#8
      else e.settled e.KEY (padBytes c.BS e.IN) 0x10#8 := by
  split
  · next hexceeds =>
    have hbody : padBody c { e with OUT := [] } = { engine := { e with OUT := [] }, outcome := .capacityExceeded } :=
      if_pos ((exceedsCapacity_iff c e.IN).mpr hexceeds)
    exact runFrame_of_body_writes_OUT hbody rfl rfl
  · next hfits =>
    have hbody : padBody c { e with OUT := [] } = { engine := { e with OUT := padBytes c.BS e.IN }, outcome := .ok } :=
      if_neg (mt (exceedsCapacity_iff c e.IN).mp hfits)
    exact runFrame_of_body_writes_OUT hbody rfl rfl

/-- Everything UNPAD and UNPAD.L can do (R97). -/
theorem cmdUnpad_eq (l : Policy) :
    cmdUnpad c l e =
      if e.IN.length = 0 ∨ e.IN.length % c.BS ≠ 0 then e.settled e.KEY [] 0x11#8
      else if (unpadCheck c.BS e.IN).2 = true then e.settled e.KEY (e.IN.take (unpadCheck c.BS e.IN).1) 0x18#8
      else e.settled e.KEY (if l = .lenient then e.IN else []) 0x12#8 := by
  split
  · next hbad =>
    have hbody : unpadBody c l { e with OUT := [] } =
        { engine := { e with OUT := [] }, outcome := .invalidInputLength } :=
      if_pos ((badLength_iff c.BS e.IN).mpr hbad)
    exact runFrame_of_body_writes_OUT hbody rfl
      ((statusWord_of_error _ (by decide)).trans statusWord_invalidInputLength)
  · next hgood =>
    have hbody : unpadBody c l { e with OUT := [] } =
        { engine := { e with OUT := (strip c.BS e.IN l).2 }, outcome := (strip c.BS e.IN l).1 } :=
      (if_neg (mt (badLength_iff c.BS e.IN).mp hgood)).trans (deliver_eq _ _)
    split
    · next hvalid =>
      rw [strip_of_valid hvalid] at hbody
      exact runFrame_of_body_writes_OUT hbody rfl (by rw [validBit_ok, checksPadding_unpad, statusWord_ok_valid])
    · next hinvalid =>
      rw [strip_of_invalid (Bool.eq_false_iff.mpr hinvalid)] at hbody
      exact runFrame_of_body_writes_OUT hbody rfl
        ((statusWord_of_error _ (o := .paddingInvalid) (by decide)).trans statusWord_paddingInvalid)

/-- H_CMD of a command's word runs the command. -/
theorem opOnEngine_cmd_encode (i : Instr) : opOnEngine c (.cmd (encode i)) e = some (runCmd c i e) := by
  simp [opOnEngine, cmdWord]

end

/-- Capacity is a whole number of Blocks (00_scope.md R8), so of the inputs within it only a full one has no room left
for its padding. -/
theorem maxlen_lt_padded_iff (c : Config) {L : Nat} (h : L ≤ c.MAXLEN) :
    c.MAXLEN < L + padCount c.BS L ↔ L = c.MAXLEN := by
  have hmax : c.MAXLEN / c.BS * c.BS = c.MAXLEN := Nat.div_mul_cancel (Nat.dvd_of_mod_eq_zero c.maxlen_mul)
  have hpos : 1 ≤ padCount c.BS L := padCount_pos c.bs_pos
  constructor
  · intro hlt
    rw [length_add_padCount c.bs_pos, ← hmax] at hlt
    have hdiv : c.MAXLEN / c.BS ≤ L / c.BS := Nat.le_of_lt_succ (Nat.lt_of_mul_lt_mul_right hlt)
    have hle : c.MAXLEN ≤ L := hmax ▸ (Nat.mul_le_mul_right _ hdiv).trans (Nat.div_mul_le_self _ _)
    omega
  · omega

theorem exec_pad (s : State) :
    exec .pad s = .next { s with engine := cmdPad Config.machine s.engine } := rfl

theorem exec_unpad (l : Policy) (s : State) :
    exec (.unpad l) s = .next { s with engine := cmdUnpad Config.machine l s.engine } := rfl

/-- Settles O17. -/
theorem padDeliversThePaddedBufferOrCapacityExceeded : Obligations.PadDeliversThePaddedBufferOrCapacityExceeded := by
  refine ⟨rfl, fun s => ⟨?_, maxlen_lt_padded_iff Config.machine⟩⟩
  rw [exec_pad, cmdPad_eq]
  rfl

/-- Settles O18. -/
theorem unpadDeliversWhatStripGives : Obligations.UnpadDeliversWhatStripGives := by
  refine ⟨rfl, rfl, fun l s => ?_⟩
  rw [exec_unpad, cmdUnpad_eq]

section
variable {c : Config} {e : Engine c.BS}

/-- UNPAD of a padded input delivers the input under both policies: its length passes the check, and so does its
padding. -/
theorem cmdUnpad_of_IN_eq_padBytes {s : Bytes} (h : e.IN = padBytes c.BS s) (l : Policy) :
    cmdUnpad c l e = e.settled e.KEY s 0x18#8 := by
  have hne : e.IN.length ≠ 0 := by
    have := padCount_pos (L := s.length) c.bs_pos
    rw [h, length_padBytes]
    omega
  have halign : e.IN.length % c.BS = 0 := by rw [h, length_padBytes_eq_mul, Nat.mul_mod_left]
  rw [cmdUnpad_eq, if_neg (not_or_intro hne (not_not_intro halign)), h, unpadCheck_padBytes, if_pos rfl, take_padBytes]

theorem opOnEngine_moveOutIn_of_le (h : e.OUT.length ≤ c.MAXLEN) :
    opOnEngine c .moveOutIn e = some { e with IN := e.OUT } := loadIn_of_le e h

/-- Settles O28: PAD leaves the padded input in OUT, which as it fits is what the load puts in IN, and UNPAD strips. -/
theorem padThenUnpadRestoresTheInput : Obligations.PadThenUnpadRestoresTheInput := by
  intro c e l hfits
  have hpad : opOnEngine c (.cmd 0x00#8) e = some (e.settled e.KEY (padBytes c.BS e.IN) 0x10#8) :=
    (opOnEngine_cmd_encode c e .pad).trans (congrArg some ((cmdPad_eq c e).trans (if_neg (Nat.not_lt.mpr hfits))))
  have hmove := opOnEngine_moveOutIn_of_le (e := e.settled e.KEY (padBytes c.BS e.IN) 0x10#8)
    ((length_padBytes _ _).trans_le hfits)
  rw [runOps_cons hpad, runOps_cons hmove, runOps_cons (opOnEngine_cmd_encode c _ (.unpad l))]
  refine ⟨_, rfl, ?_⟩
  rw [runCmd, cmdUnpad_of_IN_eq_padBytes rfl l]
  exact ⟨rfl, rfl, rfl⟩

end

end Sys2Proof.Machine
end

section
/-! SUPPORT. The chaining engine on buffers (42_cbc_engine.md R110 to R116, R119, R123, R124): the algebra of XorBlock,
the block steps, CbcEnc and CbcDec Block by Block, and the eight statements they settle. -/

namespace Sys2Proof.Machine

/-! ### XorBlock (R110) -/

section
variable {bs : Nat}

theorem xorBlock_getElem? {a b : Block bs} {j : Nat} {x y : Byte} (hx : a.1[j]? = some x) (hy : b.1[j]? = some y) :
    (xorBlock a b).1[j]? = some (x ^^^ y) := List.getElem?_zipWith_eq_some.mpr ⟨x, y, hx, hy, rfl⟩

theorem xorBlock_comm (a b : Block bs) : xorBlock a b = xorBlock b a :=
  Subtype.ext (List.zipWith_comm_of_comm BitVec.xor_comm)

theorem xorBlock_assoc (a b d : Block bs) : xorBlock (xorBlock a b) d = xorBlock a (xorBlock b d) :=
  Subtype.ext (List.ext_getElem (by simp [xorBlock, a.2, b.2, d.2]) fun j _ _ => by simp [xorBlock, BitVec.xor_assoc])

@[simp] theorem xorBlock_self (a : Block bs) : xorBlock a a = zeroBlock bs :=
  Subtype.ext (List.ext_getElem (by simp [xorBlock, zeroBlock, a.2]) fun j _ _ => by simp [xorBlock, zeroBlock])

@[simp] theorem xorBlock_zeroBlock (a : Block bs) : xorBlock a (zeroBlock bs) = a :=
  Subtype.ext (List.ext_getElem (by simp [xorBlock, zeroBlock, a.2]) fun j _ _ => by simp [xorBlock, zeroBlock])

@[simp] theorem xorBlock_xorBlock_cancel (a b : Block bs) : xorBlock (xorBlock a b) b = a := by
  rw [xorBlock_assoc, xorBlock_self, xorBlock_zeroBlock]

/-- Adding the difference of `x` and `y` puts `y` in the place of `x`. -/
theorem xorBlock_difference (a x y : Block bs) : xorBlock (xorBlock a x) (xorBlock x y) = xorBlock a y := by
  rw [← xorBlock_assoc, xorBlock_xorBlock_cancel]

end

/-- Settles O30. -/
theorem xorBlockIsBytewiseWithItsLaws : Obligations.XorBlockIsBytewiseWithItsLaws :=
  ⟨fun _ a b =>
    ⟨fun _ _ _ => xorBlock_getElem?, xorBlock_comm a b, xorBlock_xorBlock_cancel a b, xorBlock_zeroBlock a⟩, by decide⟩

/-! ### The block steps (R112, R114) -/

/-- Settles O31: where the Block exists and KS holds a schedule, the one case left of `encStep_cases` is the step. -/
theorem encStepProcessesOneBlock : Obligations.EncStepProcessesOneBlock := by
  intro c e ks hks hidx
  obtain ⟨p, hp, hbytes⟩ := blk_of_lt hidx
  rcases encStep_cases c e with ⟨ks', p', hks', hp', hstep⟩ | ⟨hnone, -⟩
  · cases hks.symm.trans hks'
    cases hp.symm.trans hp'
    exact ⟨p, hbytes, hstep⟩
  · simp [hks, hp] at hnone

/-- Settles O32, as `encStepProcessesOneBlock` does for EncStep. -/
theorem decStepProcessesOneBlock : Obligations.DecStepProcessesOneBlock := by
  intro c e ks hks hidx
  obtain ⟨ct, hct, hbytes⟩ := blk_of_lt hidx
  rcases decStep_cases c e with ⟨ks', ct', hks', hct', hstep⟩ | ⟨hnone, -⟩
  · cases hks.symm.trans hks'
    cases hct.symm.trans hct'
    exact ⟨ct, hbytes, hstep⟩
  · simp [hks, hct] at hnone

/-! ### The recurrences on lists of Blocks (R113, R115) -/

section
variable (c : Config) (ks : KeySchedule)

/-- `C_i = E(ks, XorBlock(P_i, C_{i-1}))`, all the Blocks at once. -/
theorem encBlocks_recurrence (prev : Block c.BS) (l : List (Block c.BS)) :
    encBlocks c ks prev l =
      List.zipWith (fun P C => encryptBlock c ks (xorBlock P C)) l (prev :: encBlocks c ks prev l) := by
  induction l generalizing prev with
  | nil => rfl
  | cons p l ih => exact congrArg (encryptBlock c ks (xorBlock p prev) :: ·) (ih _)

/-- `P_i = XorBlock(D(ks, C_i), C_{i-1})`, all the Blocks at once: decryption chains its input, not its output. -/
theorem decBlocks_eq_zipWith (prev : Block c.BS) (l : List (Block c.BS)) :
    decBlocks c ks prev l = List.zipWith (fun C Q => xorBlock (decryptBlock c ks C) Q) l (prev :: l) := by
  induction l generalizing prev with
  | nil => rfl
  | cons ct l ih => exact congrArg (xorBlock (decryptBlock c ks ct) prev :: ·) (ih ct)

/-- The first `m` Blocks of ciphertext are the encryption of the first `m` Blocks of plaintext. -/
theorem encBlocks_take (prev : Block c.BS) (l : List (Block c.BS)) (m : Nat) :
    (encBlocks c ks prev l).take m = encBlocks c ks prev (l.take m) := by
  induction l generalizing prev m with
  | nil => simp
  | cons p l ih =>
    cases m with
    | zero => rfl
    | succ m => exact congrArg (encryptBlock c ks (xorBlock p prev) :: ·) (ih _ m)

variable {c} in
@[simp] theorem decryptBlock_encryptBlock (x : Block c.BS) : decryptBlock c ks (encryptBlock c ks x) = x :=
  (c.prim.cipher ks).symm_apply_apply x

variable {c} in
@[simp] theorem encryptBlock_decryptBlock (x : Block c.BS) : encryptBlock c ks (decryptBlock c ks x) = x :=
  (c.prim.cipher ks).apply_symm_apply x

theorem decBlocks_encBlocks (prev : Block c.BS) (l : List (Block c.BS)) :
    decBlocks c ks prev (encBlocks c ks prev l) = l := by
  induction l generalizing prev with
  | nil => rfl
  | cons p l ih => simp [encBlocks_cons, decBlocks_cons, ih]

theorem encBlocks_decBlocks (prev : Block c.BS) (l : List (Block c.BS)) :
    encBlocks c ks prev (decBlocks c ks prev l) = l := by
  induction l generalizing prev with
  | nil => rfl
  | cons ct l ih => simp [encBlocks_cons, decBlocks_cons, ih]

/-! ### CbcEnc and CbcDec as buffers -/

@[simp] theorem blocksOf_cbcEnc (p : Bytes) :
    blocksOf c.BS (cbcEnc c ks p) = encBlocks c ks (zeroBlock c.BS) (blocksOf c.BS p) :=
  blocksOf_joinBlocks c.bs_pos _

@[simp] theorem blocksOf_cbcDec (ct : Bytes) :
    blocksOf c.BS (cbcDec c ks ct) = decBlocks c ks (zeroBlock c.BS) (blocksOf c.BS ct) :=
  blocksOf_joinBlocks c.bs_pos _

/-- A block-aligned buffer is as long as any Blocks that are as many as its own. -/
theorem length_joinBlocks_of_aligned {bs : Nat} {l : List (Block bs)} {s : Bytes} (h : s.length % bs = 0)
    (hl : l.length = blockCount bs s) : (joinBlocks l).length = s.length := by
  rw [length_joinBlocks, hl]
  exact Nat.div_mul_cancel (Nat.dvd_of_mod_eq_zero h)

variable {c}

theorem length_cbcEnc {p : Bytes} (h : p.length % c.BS = 0) : (cbcEnc c ks p).length = p.length :=
  length_joinBlocks_of_aligned h ((length_encBlocks c ks _ _).trans (length_blocksOf p))

theorem length_cbcDec {ct : Bytes} (h : ct.length % c.BS = 0) : (cbcDec c ks ct).length = ct.length :=
  length_joinBlocks_of_aligned h ((length_decBlocks c ks _ _).trans (length_blocksOf ct))

theorem cbcDec_cbcEnc {p : Bytes} (h : p.length % c.BS = 0) : cbcDec c ks (cbcEnc c ks p) = p := by
  rw [cbcDec, blocksOf_cbcEnc, decBlocks_encBlocks, joinBlocks_blocksOf c.bs_pos h]

theorem cbcEnc_cbcDec {ct : Bytes} (h : ct.length % c.BS = 0) : cbcEnc c ks (cbcDec c ks ct) = ct := by
  rw [cbcEnc, blocksOf_cbcDec, encBlocks_decBlocks, joinBlocks_blocksOf c.bs_pos h]

end

/-- Settles O36. -/
theorem cbcDecAndCbcEncAreInverse : Obligations.CbcDecAndCbcEncAreInverse :=
  fun _ ks _ h => ⟨cbcDec_cbcEnc ks h, cbcEnc_cbcDec ks h⟩

/-! ### The recurrences Block by Block -/

/-- What Block `i` of a ciphertext is chained with: the Block before it, and IV before the first (R116). -/
def prevBlk (bs : Nat) (s : Bytes) : Nat → Option (Block bs)
  | 0 => some (zeroBlock bs)
  | i + 1 => blk bs s i

theorem cons_blocksOf_getElem? (bs : Nat) (s : Bytes) (i : Nat) :
    (zeroBlock bs :: blocksOf bs s)[i]? = prevBlk bs s i := by
  cases i with
  | zero => rfl
  | succ i => exact blocksOf_getElem? s i

theorem zipWith_getElem?_eq_map₂ {α β γ : Type} (f : α → β → γ) (l : List α) (m : List β) (i : Nat) :
    (List.zipWith f l m)[i]? = Option.map₂ f l[i]? m[i]? :=
  List.getElem?_zipWith'.trans Option.bind_map

section
variable {c : Config} (ks : KeySchedule)

/-- `C_i = E(ks, XorBlock(P_i, C_{i-1}))` (R113), the ciphertext having a Block where the plaintext has one. -/
theorem blk_cbcEnc (p : Bytes) (i : Nat) :
    blk c.BS (cbcEnc c ks p) i =
      Option.map₂ (fun P C => encryptBlock c ks (xorBlock P C)) (blk c.BS p i) (prevBlk c.BS (cbcEnc c ks p) i) := by
  rw [← blocksOf_getElem?, ← blocksOf_getElem?, ← cons_blocksOf_getElem?, blocksOf_cbcEnc]
  exact (congrArg (·[i]?) (encBlocks_recurrence c ks _ _)).trans (zipWith_getElem?_eq_map₂ _ _ _ i)

/-- `P_i = XorBlock(D(ks, C_i), C_{i-1})` (R115), the plaintext having a Block where the ciphertext has one. -/
theorem blk_cbcDec (ct : Bytes) (i : Nat) :
    blk c.BS (cbcDec c ks ct) i =
      Option.map₂ (fun C Q => xorBlock (decryptBlock c ks C) Q) (blk c.BS ct i) (prevBlk c.BS ct i) := by
  rw [← blocksOf_getElem?, ← blocksOf_getElem?, ← cons_blocksOf_getElem?, blocksOf_cbcDec, decBlocks_eq_zipWith,
    zipWith_getElem?_eq_map₂]

/-- A plaintext Block depends on two ciphertext Blocks only, its own and the one before it. -/
theorem blk_cbcDec_congr {a b : Bytes} {i : Nat} (hown : blk c.BS a i = blk c.BS b i)
    (hprev : prevBlk c.BS a i = prevBlk c.BS b i) : blk c.BS (cbcDec c ks a) i = blk c.BS (cbcDec c ks b) i := by
  rw [blk_cbcDec, blk_cbcDec, hown, hprev]

/-! ### The loops compute them -/

/-- The EncSteps from IV, over the whole of PBUF, append its encryption to an empty OUT. -/
theorem encLoop_computes_cbcEnc {e : Engine c.BS} (hks : e.KS = some ks) (hchain : e.CHAIN = zeroBlock c.BS)
    (hidx : e.IDX = 0) (hout : e.OUT = []) :
    (encLoop c e).OUT = cbcEnc c ks e.PBUF ∧ (encLoop c e).IDX = blockCount c.BS e.PBUF := by
  obtain ⟨hOUT, hIDX, -⟩ := stepLoop_encStep c ks (blockCount c.BS e.PBUF) e hks (by omega)
  rw [hout, hchain, hidx] at hOUT
  exact ⟨hOUT, hIDX⟩

/-- The DecSteps from IV, over the whole of IN, append its decryption to an empty PBUF. -/
theorem decLoop_computes_cbcDec {e : Engine c.BS} (hks : e.KS = some ks) (hchain : e.CHAIN = zeroBlock c.BS)
    (hidx : e.IDX = 0) (hpbuf : e.PBUF = []) :
    (decLoop c e).PBUF = cbcDec c ks e.IN ∧ (decLoop c e).IDX = blockCount c.BS e.IN := by
  obtain ⟨hPBUF, hIDX, -⟩ := stepLoop_decStep c ks (blockCount c.BS e.IN) e hks (by omega)
  rw [hpbuf, hchain, hidx] at hPBUF
  exact ⟨hPBUF, hIDX⟩

end

/-- Settles O33: the rule's equations are `blk_cbcEnc` at the first Block and at the others. -/
theorem cbcEncIsTheRecurrenceTheStepsCompute : Obligations.CbcEncIsTheRecurrenceTheStepsCompute := by
  intro c ks p halign
  have hlen := length_cbcEnc ks halign
  refine ⟨hlen, fun P hP => ?_, fun i P hP => ?_, ?_⟩
  · have hfirst : blk c.BS (cbcEnc c ks p) 0 = some (encryptBlock c ks (xorBlock P (zeroBlock c.BS))) := by
      rw [blk_cbcEnc, hP]
      rfl
    exact ⟨hfirst, by rwa [xorBlock_zeroBlock] at hfirst⟩
  · have hi : i < blockCount c.BS (cbcEnc c ks p) := by
      rw [blockCount, hlen]
      exact Nat.lt_of_succ_lt (blk_eq_some hP).1
    obtain ⟨C, hC, -⟩ := blk_of_lt hi
    exact ⟨C, hC, by rw [blk_cbcEnc, hP, prevBlk, hC, Option.map₂_some_some]⟩
  · rintro e rfl hks hchain hidx hout
    exact encLoop_computes_cbcEnc ks hks hchain hidx hout

/-- Settles O34: the rule's equations are `blk_cbcDec` at the first Block and at the others. -/
theorem cbcDecIsTheRecurrenceTheStepsCompute : Obligations.CbcDecIsTheRecurrenceTheStepsCompute := by
  intro c ks ct halign
  refine ⟨length_cbcDec ks halign, fun C hC => ?_, fun i C hC => ?_, ?_⟩
  · rw [blk_cbcDec, hC]
    rfl
  · obtain ⟨Q, hQ, -⟩ := blk_of_lt (Nat.lt_of_succ_lt (blk_eq_some hC).1)
    exact ⟨Q, hQ, by rw [blk_cbcDec, hC, prevBlk, hQ, Option.map₂_some_some]⟩
  · rintro e rfl hks hchain hidx hpbuf
    exact decLoop_computes_cbcDec ks hks hchain hidx hpbuf

/-! ### Equal leading Blocks (R123) -/

/-- Bytes after a Block do not matter to it. -/
theorem blk_append_of_lt {bs : Nat} {s : Bytes} {i : Nat} (t : Bytes) (h : i < blockCount bs s) :
    blk bs (s ++ t) i = blk bs s i := by
  have hend := blk_end_le h
  have hlt : i < blockCount bs (s ++ t) :=
    h.trans_le (Nat.div_le_div_right (List.length_append ▸ Nat.le_add_right _ _))
  obtain ⟨p, hp, hbytes⟩ := blk_of_lt h
  obtain ⟨q, hq, hbytes'⟩ := blk_of_lt hlt
  have hsame : q = p := Subtype.ext (by
    rw [hbytes, hbytes', List.drop_append_of_le_length (by omega),
      List.take_append_of_le_length (by rw [List.length_drop]; omega)])
  rw [hp, hq, hsame]

theorem take_blocksOf_eq_iff {bs : Nat} {s t : Bytes} {m : Nat} :
    (blocksOf bs s).take m = (blocksOf bs t).take m ↔ ∀ i < m, blk bs s i = blk bs t i := by
  rw [List.ext_getElem?_iff]
  refine forall_congr' fun i => ?_
  by_cases hi : i < m
  · simp [List.getElem?_take_of_lt, blocksOf_getElem?, hi]
  · simp [hi]

/-- Plaintexts that agree on their first `m` Blocks have the same first `m` ciphertext Blocks: the chaining runs
forwards. -/
theorem blk_cbcEnc_congr {c : Config} (ks : KeySchedule) {p q : Bytes} {m : Nat}
    (h : ∀ i < m, blk c.BS p i = blk c.BS q i) : ∀ i < m, blk c.BS (cbcEnc c ks p) i = blk c.BS (cbcEnc c ks q) i := by
  rw [← take_blocksOf_eq_iff] at h ⊢
  rw [blocksOf_cbcEnc, blocksOf_cbcEnc, encBlocks_take, encBlocks_take, h]

/-- The first `m` Blocks of a buffer of at least `m` lie within its first `m * BS` bytes, whatever is padded to it. -/
theorem blk_padBytes_of_le {c : Config} {P : Bytes} {m i : Nat} (hlen : m * c.BS ≤ P.length) (hi : i < m) :
    blk c.BS (padBytes c.BS P) i = blk c.BS (P.take (m * c.BS)) i := by
  have hcount : i < blockCount c.BS (P.take (m * c.BS)) := by
    rw [blockCount, List.length_take_of_le hlen, Nat.mul_div_cancel _ c.bs_pos]
    exact hi
  obtain ⟨t, ht⟩ : P.take (m * c.BS) <+: padBytes c.BS P := (List.take_prefix _ P).trans (List.prefix_append P _)
  rw [← ht, blk_append_of_lt t hcount]

/-- Settles O40. -/
theorem equalLeadingPlaintextGivesEqualLeadingCiphertext :
    Obligations.EqualLeadingPlaintextGivesEqualLeadingCiphertext :=
  fun _ ks _ _ _ => ⟨blk_cbcEnc_congr ks, fun hP hP' htake => blk_cbcEnc_congr ks fun i hi => by
    rw [blk_padBytes_of_le hP hi, blk_padBytes_of_le hP' hi, htake]⟩

/-! ### Damage to one ciphertext Block (R124) -/

/-- Settles O41: Block `i` of the plaintext reads Blocks `i` and `i - 1` of the ciphertext, so the damaged Block counts
for two Blocks only, once decrypted and once as the chaining value. -/
theorem ciphertextDamageStaysInTwoBlocks : Obligations.CiphertextDamageStaysInTwoBlocks := by
  intro c ks a b k x y _ _ hx hy hother
  refine ⟨fun i hik hik1 => ?_, fun hk => ?_, fun q hk hq => ?_, fun p hp => ?_⟩
  · refine blk_cbcDec_congr ks (hother i hik) ?_
    cases i with
    | zero => rfl
    | succ i => exact hother i (by omega)
  · subst hk
    rw [blk_cbcDec, hy]
    rfl
  · obtain ⟨j, rfl⟩ := Nat.exists_eq_add_of_le' hk
    rw [Nat.add_sub_cancel, hother j (by omega)] at hq
    rw [blk_cbcDec, hy, prevBlk, hq, Option.map₂_some_some]
  · rw [blk_cbcDec, prevBlk, hx] at hp
    obtain ⟨C, x', hC, hx', rfl⟩ := Option.map₂_eq_some_iff.mp hp
    cases hx'
    rw [blk_cbcDec, ← hother _ (by omega), hC, prevBlk, hy, Option.map₂_some_some, xorBlock_difference]

end Sys2Proof.Machine
end

section
/-! SUPPORT. The commands ENCRYPT and DECRYPT (42_cbc_engine.md R117, R118) as whole engines, for every configuration:
what they answer is EncryptF and DecryptF (43_primitive_and_host_interface.md R143) of IN and KEY. With the lengths,
determinism and the round trip (R120 to R122), the five statements they settle. -/

namespace Sys2Proof.Machine

/-! ### EncryptF and DecryptF (43_primitive_and_host_interface.md R143) -/

section
variable (c : Config)

/-- Everything EncryptF can answer, in the order of its errors. -/
theorem encryptF_cases (P K : Bytes) :
    (c.MAXLEN < P.length + padCount c.BS P.length ∧ encryptF c P K = (.capacityExceeded, [])) ∨
    (¬ c.MAXLEN < P.length + padCount c.BS P.length ∧ c.prim.setKey K = none ∧
      encryptF c P K = (.keyScheduleError, [])) ∨
    (¬ c.MAXLEN < P.length + padCount c.BS P.length ∧
      ∃ ks, c.prim.setKey K = some ks ∧ encryptF c P K = (.ok, cbcEnc c ks (padBytes c.BS P))) := by
  unfold encryptF
  split
  · next hcap => exact .inl ⟨hcap, rfl⟩
  · next hcap =>
    cases hkey : c.prim.setKey K with
    | none => exact .inr (.inl ⟨hcap, rfl, rfl⟩)
    | some ks => exact .inr (.inr ⟨hcap, ks, rfl, rfl⟩)

/-- Everything DecryptF can answer, in the order of its errors. -/
theorem decryptF_cases (C K : Bytes) (l : Policy) :
    ((C.length = 0 ∨ C.length % c.BS ≠ 0) ∧ decryptF c C K l = (.invalidInputLength, [])) ∨
    (¬ (C.length = 0 ∨ C.length % c.BS ≠ 0) ∧ c.prim.setKey K = none ∧
      decryptF c C K l = (.keyScheduleError, [])) ∨
    (¬ (C.length = 0 ∨ C.length % c.BS ≠ 0) ∧
      ∃ ks, c.prim.setKey K = some ks ∧ decryptF c C K l = strip c.BS (cbcDec c ks C) l) := by
  unfold decryptF
  split
  · next hbad => exact .inl ⟨hbad, rfl⟩
  · next hgood =>
    cases hkey : c.prim.setKey K with
    | none => exact .inr (.inl ⟨hgood, rfl, rfl⟩)
    | some ks => exact .inr (.inr ⟨hgood, ks, rfl, rfl⟩)

/-! ### The bodies compute them -/

variable {c}

/-- On the empty OUT that the frame hands it, the body of ENCRYPT answers EncryptF of IN and KEY. -/
theorem encryptBody_computes_encryptF {e : Engine c.BS} (hout : e.OUT = []) :
    (encryptBody c e).engine.OUT = (encryptF c e.IN e.KEY).2 ∧
      (encryptBody c e).outcome = (encryptF c e.IN e.KEY).1 := by
  unfold encryptBody
  rcases encryptF_cases c e.IN e.KEY with ⟨hcap, h⟩ | ⟨hcap, hkey, h⟩ | ⟨hcap, ks, hkey, h⟩ <;>
    rw [← exceedsCapacity_iff] at hcap
  · simp [h, hcap, hout]
  · simp [h, hcap, hkey, hout]
  · have hloop := (encLoop_computes_cbcEnc (e := encStart c ks e) ks rfl rfl rfl hout).1
    simp [h, hcap, hkey, hloop]

/-- On the empty OUT that the frame hands it, the body of DECRYPT answers DecryptF of IN and KEY. -/
theorem decryptBody_computes_decryptF (l : Policy) {e : Engine c.BS} (hout : e.OUT = []) :
    (decryptBody c l e).engine.OUT = (decryptF c e.IN e.KEY l).2 ∧
      (decryptBody c l e).outcome = (decryptF c e.IN e.KEY l).1 := by
  unfold decryptBody
  rcases decryptF_cases c e.IN e.KEY l with ⟨hbad, h⟩ | ⟨hbad, hkey, h⟩ | ⟨hbad, ks, hkey, h⟩ <;>
    rw [← badLength_iff] at hbad
  · simp [h, hbad, hout]
  · simp [h, hbad, hkey, hout]
  · have hloop := (decLoop_computes_cbcDec (e := decStart c ks e) ks rfl rfl rfl rfl).1
    simp [h, hbad, hkey, hloop]

variable (c)

/-- Everything ENCRYPT does to an engine. -/
theorem cmdEncrypt_eq_settled (e : Engine c.BS) :
    cmdEncrypt c e =
      e.settled [] (encryptF c e.IN e.KEY).2 (statusWord false (encryptF c e.IN e.KEY).1) := by
  obtain ⟨hout, houtcome⟩ := encryptBody_computes_encryptF (e := { e with OUT := [] }) rfl
  have hvalid (o : CmdOutcome) : validBit (some .encrypt) o = false := by simp [validBit]
  rw [cmdEncrypt, runFrame_eq_settled _ _ e (encryptBody_IN c _), hout, houtcome, hvalid]
  rfl

/-- Everything DECRYPT and DECRYPT.L do to an engine. -/
theorem cmdDecrypt_eq_settled (l : Policy) (e : Engine c.BS) :
    cmdDecrypt c l e =
      e.settled [] (decryptF c e.IN e.KEY l).2
        (statusWord (validBit (some (.decrypt l)) (decryptF c e.IN e.KEY l).1) (decryptF c e.IN e.KEY l).1) := by
  obtain ⟨hout, houtcome⟩ := decryptBody_computes_decryptF l (e := { e with OUT := [] }) rfl
  rw [cmdDecrypt, runFrame_eq_settled _ _ e (decryptBody_IN c l _), hout, houtcome]
  rfl

theorem cmdIllegal_eq_settled {bs : Nat} (e : Engine bs) : cmdIllegal e = e.settled e.KEY [] 0x15#8 :=
  runFrame_of_body_writes_OUT rfl rfl statusWord_illegalCommand

theorem statusErr_cmdEncrypt (e : Engine c.BS) :
    statusErr (runCmd c .encrypt e).STATUS = (encryptF c e.IN e.KEY).1.code := by
  rw [runCmd, cmdEncrypt_eq_settled, Engine.settled_STATUS, statusErr_statusWord]

theorem statusErr_cmdDecrypt (l : Policy) (e : Engine c.BS) :
    statusErr (runCmd c (.decrypt l) e).STATUS = (decryptF c e.IN e.KEY l).1.code := by
  rw [runCmd, cmdDecrypt_eq_settled, Engine.settled_STATUS, statusErr_statusWord]

end

/-! ### The commands of this hardware (R117, R118) -/

theorem exec_encrypt (s : State) :
    exec .encrypt s = .next { s with engine := cmdEncrypt Config.machine s.engine } := rfl

theorem exec_decrypt (l : Policy) (s : State) :
    exec (.decrypt l) s = .next { s with engine := cmdDecrypt Config.machine l s.engine } := rfl

section
variable {c : Config} (ks : KeySchedule)

theorem padBytes_aligned (s : Bytes) : (padBytes c.BS s).length % c.BS = 0 := by
  rw [length_padBytes_eq_mul, Nat.mul_mod_left]

theorem length_cbcEnc_padBytes (s : Bytes) :
    (cbcEnc c ks (padBytes c.BS s)).length = (s.length / c.BS + 1) * c.BS := by
  rw [length_cbcEnc ks (padBytes_aligned s), length_padBytes_eq_mul]

/-- A valid strip of a recovered buffer removes one byte to one Block of the ciphertext's length. -/
theorem length_take_unpadCheck_cbcDec {C : Bytes} (halign : C.length % c.BS = 0)
    (hvalid : (unpadCheck c.BS (cbcDec c ks C)).2 = true) :
    let n := (unpadCheck c.BS (cbcDec c ks C)).1
    ((cbcDec c ks C).take n).length = n ∧ C.length - c.BS ≤ n ∧ n ≤ C.length - 1 := by
  intro n
  obtain ⟨-, hremoved, -⟩ := unpadCheckInvertsPad c
  obtain ⟨hlt, -, hle⟩ := hremoved _ hvalid
  rw [length_cbcDec ks halign] at hlt hle
  exact ⟨List.length_take_of_le (by rw [length_cbcDec ks halign]; exact hlt.le), by omega, by omega⟩

end

/-- Settles O19. -/
theorem encryptDeliversCbcEncOfThePaddedInput : Obligations.EncryptDeliversCbcEncOfThePaddedInput := by
  refine ⟨rfl, fun s => ⟨?_, fun ks => length_cbcEnc_padBytes ks _, maxlen_lt_padded_iff Config.machine⟩⟩
  rw [exec_encrypt, cmdEncrypt_eq_settled]
  rcases encryptF_cases Config.machine s.engine.IN s.engine.KEY with
    ⟨hcap, h⟩ | ⟨hcap, hkey, h⟩ | ⟨hcap, ks, hkey, h⟩
  · rw [h, if_pos hcap, statusWord_capacityExceeded]
  · rw [h, if_neg hcap, hkey, statusWord_keyScheduleError]
  · rw [h, if_neg hcap, hkey, statusWord_ok]

/-- Settles O20. -/
theorem decryptDeliversWhatStripGivesOfCbcDec : Obligations.DecryptDeliversWhatStripGivesOfCbcDec := by
  refine ⟨rfl, rfl, fun l s => ⟨?_, fun ks halign hvalid => ?_⟩⟩
  · rw [exec_decrypt, cmdDecrypt_eq_settled]
    rcases decryptF_cases Config.machine s.engine.IN s.engine.KEY l with
      ⟨hbad, h⟩ | ⟨hbad, hkey, h⟩ | ⟨hbad, ks, hkey, h⟩
    · rw [h, if_pos hbad, statusWord_of_error _ (by decide), statusWord_invalidInputLength]
    · rw [h, if_neg hbad, hkey, statusWord_of_error _ (by decide), statusWord_keyScheduleError]
    · rw [h, if_neg hbad, hkey]
      dsimp only
      split
      · next hvalid => rw [strip_of_valid hvalid, validBit_ok, checksPadding_decrypt, statusWord_ok_valid]
      · next hinvalid =>
        rw [strip_of_invalid (Bool.eq_false_iff.mpr hinvalid), statusWord_of_error _ (o := .paddingInvalid) (by decide),
          statusWord_paddingInvalid]
  · exact length_take_unpadCheck_cbcDec ks halign hvalid

/-! ### Lengths and determinism (R121, R122) -/

/-- Settles O38: ENCRYPT reports OK only where it delivers the encryption of the padded input. -/
theorem ciphertextLengthDependsOnThePlaintextLengthOnly :
    Obligations.CiphertextLengthDependsOnThePlaintextLengthOnly := by
  intro c e hstatus n
  have hok : (encryptF c e.IN e.KEY).1.code = 0#3 := by
    rw [← statusErr_cmdEncrypt, hstatus]
    decide
  have hn : n = (e.IN.length / c.BS + 1) * c.BS := by
    show (cmdEncrypt c e).OUT.length = _
    rw [cmdEncrypt_eq_settled, Engine.settled_OUT]
    rcases encryptF_cases c e.IN e.KEY with ⟨-, h⟩ | ⟨-, -, h⟩ | ⟨-, ks, -, h⟩
    · simp [h, CmdOutcome.code] at hok
    · simp [h, CmdOutcome.code] at hok
    · rw [h, length_cbcEnc_padBytes]
  have hpad : n = e.IN.length + padCount c.BS e.IN.length := hn.trans (length_add_padCount c.bs_pos).symm
  have hpos : 1 ≤ padCount c.BS e.IN.length := padCount_pos c.bs_pos
  exact ⟨hn, hpad, by omega, hn ▸ Nat.mul_mod_left _ _, hn ▸ Nat.le_mul_of_pos_left _ (Nat.succ_pos _),
    fun h => by rw [hpad, padCount_of_aligned h]⟩

/-- Of the engine before it, a settled engine keeps IN alone. -/
theorem Engine.settled_congr {bs : Nat} {e e' : Engine bs} (h : e.IN = e'.IN) (key out : Bytes) (st : BitVec 8) :
    e.settled key out st = e'.settled key out st := by rw [Engine.settled, h, Engine.settled]

theorem runCmd_congr {c : Config} {e e' : Engine c.BS} (hin : e.IN = e'.IN) (hkey : e.KEY = e'.KEY) (i : Instr) :
    runCmd c i e = runCmd c i e' := by
  cases i with
  | pad => simp only [runCmd, cmdPad_eq, Engine.settled_congr hin, hin, hkey]
  | unpad l => simp only [runCmd, cmdUnpad_eq, Engine.settled_congr hin, hin, hkey]
  | encrypt => simp only [runCmd, cmdEncrypt_eq_settled, Engine.settled_congr hin, hin, hkey]
  | decrypt l => simp only [runCmd, cmdDecrypt_eq_settled, Engine.settled_congr hin, hin, hkey]

/-- Settles O39. -/
theorem commandsDependOnWordInAndKeyOnly : Obligations.CommandsDependOnWordInAndKeyOnly := by
  intro c w e e' hin hkey
  unfold cmdWord
  split
  · exact runCmd_congr hin hkey _
  · rw [cmdIllegal_eq_settled, cmdIllegal_eq_settled, Engine.settled_congr hin, hkey]

/-! ### The round trip (R120) -/

section
variable {c : Config}

theorem opOnEngine_loadIn_of_le {s : Bytes} (e : Engine c.BS) (h : s.length ≤ c.MAXLEN) :
    opOnEngine c (.loadIn s) e = some { e with IN := s } := loadIn_of_le e h

theorem opOnEngine_loadKey_of_le {k : Bytes} (e : Engine c.BS) (h : k.length ≤ c.KEYMAX) :
    opOnEngine c (.loadKey k) e = some { e with KEY := k } := loadKey_of_le e h

/-- A plaintext below capacity passes the capacity check. -/
theorem padded_le_maxlen {L : Nat} (h : L < c.MAXLEN) : L + padCount c.BS L ≤ c.MAXLEN :=
  Nat.not_lt.mp fun hlt => h.ne ((maxlen_lt_padded_iff c h.le).mp hlt)

/-- ENCRYPT of a plaintext below capacity, under a key that SetKey accepts, delivers its ciphertext. -/
theorem cmdEncrypt_of_accepted {e : Engine c.BS} {ks : KeySchedule} (hin : e.IN.length < c.MAXLEN)
    (hkey : c.prim.setKey e.KEY = some ks) :
    cmdEncrypt c e = e.settled [] (cbcEnc c ks (padBytes c.BS e.IN)) 0x10#8 := by
  rw [cmdEncrypt_eq_settled, encryptF, if_neg (Nat.not_lt.mpr (padded_le_maxlen hin)), hkey]
  exact congrArg (e.settled [] _) statusWord_ok

/-- DECRYPT of a ciphertext, under the same schedule and either policy, delivers the plaintext. -/
theorem cmdDecrypt_of_ciphertext {e : Engine c.BS} {ks : KeySchedule} {P : Bytes}
    (hin : e.IN = cbcEnc c ks (padBytes c.BS P)) (hkey : c.prim.setKey e.KEY = some ks) (l : Policy) :
    cmdDecrypt c l e = e.settled [] P 0x18#8 := by
  have hgood : ¬ (e.IN.length = 0 ∨ e.IN.length % c.BS ≠ 0) := by
    have hpos : 0 < (P.length / c.BS + 1) * c.BS := Nat.mul_pos (Nat.succ_pos _) c.bs_pos
    rw [hin, length_cbcEnc_padBytes, Nat.mul_mod_left]
    omega
  have hF : decryptF c e.IN e.KEY l = (.ok, P) := by
    rw [decryptF, if_neg hgood, hkey]
    dsimp only
    rw [hin, cbcDec_cbcEnc ks (padBytes_aligned P), strip_padBytes]
  rw [cmdDecrypt_eq_settled, hF, validBit_ok, checksPadding_decrypt, statusWord_ok_valid]

/-- The ciphertext of a plaintext below capacity fits the buffers: it is no longer than the padded plaintext. -/
theorem length_cbcEnc_padBytes_le (ks : KeySchedule) {P : Bytes} (hP : P.length < c.MAXLEN) :
    (cbcEnc c ks (padBytes c.BS P)).length ≤ c.MAXLEN := by
  rw [length_cbcEnc ks (padBytes_aligned P), length_padBytes]
  exact padded_le_maxlen hP

/-- Settles O37: the operations in turn, with the ciphertext in IN and the key staged again for DECRYPT. -/
theorem encryptThenDecryptRestoresThePlaintext : Obligations.EncryptThenDecryptRestoresThePlaintext := by
  intro c e P K ks l hP hK hkey
  rw [runOps_cons (opOnEngine_loadIn_of_le _ hP.le), runOps_cons (opOnEngine_loadKey_of_le _ hK),
    runOps_cons (opOnEngine_cmd_encode c _ _), runCmd, cmdEncrypt_of_accepted hP hkey,
    runOps_cons (opOnEngine_moveOutIn_of_le (length_cbcEnc_padBytes_le ks hP)),
    runOps_cons (opOnEngine_loadKey_of_le _ hK), runOps_cons (opOnEngine_cmd_encode c _ _), runCmd,
    cmdDecrypt_of_ciphertext rfl hkey l]
  exact ⟨_, rfl, rfl, rfl, rfl⟩

end

end Sys2Proof.Machine
end

section
/-! SUPPORT. What the padding check of DECRYPT detects (42_cbc_engine.md R125), and on which ciphertext Blocks its
verdict depends: the statement they settle. -/

namespace Sys2Proof.Machine

theorem code_eq_paddingInvalid_iff {o : CmdOutcome} :
    o.code = CmdOutcome.paddingInvalid.code ↔ o = .paddingInvalid := by
  cases o <;> decide

theorem strip_outcome_eq_paddingInvalid_iff {bs : Nat} {b : Bytes} {l : Policy} :
    (strip bs b l).1 = .paddingInvalid ↔ (unpadCheck bs b).2 = false := by
  rw [strip_outcome]
  cases (unpadCheck bs b).2 <;> decide

theorem decryptF_outcome_eq_paddingInvalid_iff {c : Config} {C K : Bytes} {l : Policy} :
    (decryptF c C K l).1 = .paddingInvalid ↔
      C.length ≠ 0 ∧ C.length % c.BS = 0 ∧
        ∃ ks, c.prim.setKey K = some ks ∧ (unpadCheck c.BS (cbcDec c ks C)).2 = false := by
  rcases decryptF_cases c C K l with ⟨hbad, h⟩ | ⟨hgood, hkey, h⟩ | ⟨hgood, ks, hkey, h⟩
  · simp only [h, reduceCtorEq, false_iff]
    rintro ⟨hne, halign, -⟩
    exact hbad.elim hne (· halign)
  · simp [h, hkey]
  · rw [not_or, not_not] at hgood
    simp [h, hkey, hgood, strip_outcome_eq_paddingInvalid_iff]

/-- A Block lies in what follows every earlier offset. -/
theorem blk_congr_of_drop {bs : Nat} {s t : Bytes} {d i : Nat} (hlen : s.length = t.length)
    (hdrop : s.drop d = t.drop d) (hd : d ≤ i * bs) : blk bs s i = blk bs t i := by
  by_cases hi : i < blockCount bs s
  · obtain ⟨p, hp, hbytes⟩ := blk_of_lt hi
    obtain ⟨q, hq, hbytes'⟩ := blk_of_lt (s := t) (by rwa [blockCount, ← hlen])
    obtain ⟨k, hk⟩ := Nat.exists_eq_add_of_le hd
    have hsame : p = q := Subtype.ext (by
      rw [hbytes, hbytes', hk, ← List.drop_drop, ← List.drop_drop, hdrop])
    rw [hp, hq, hsame]
  · rw [blk_of_ge (Nat.not_lt.mp hi), blk_of_ge (by rw [blockCount, ← hlen]; exact Nat.not_lt.mp hi)]

/-- The last BS bytes of a block-aligned buffer are its last Block. -/
theorem drop_eq_of_last_blk_eq {bs n : Nat} {s t : Bytes} (hs : s.length = (n + 1) * bs) (ht : t.length = (n + 1) * bs)
    (hbs : 1 ≤ bs) (h : blk bs s n = blk bs t n) : s.drop (s.length - bs) = t.drop (t.length - bs) := by
  have hlast (b : Bytes) (hb : b.length = (n + 1) * bs) : ∃ p, blk bs b n = some p ∧ p.1 = b.drop (b.length - bs) := by
    have hoff : b.length - bs = n * bs := by rw [hb, Nat.succ_mul, Nat.add_sub_cancel]
    obtain ⟨p, hp, hbytes⟩ := blk_of_lt (bs := bs) (s := b) (i := n) (by
      rw [blockCount, hb, Nat.mul_div_cancel _ hbs]
      exact Nat.lt_succ_self n)
    refine ⟨p, hp, hbytes.trans ?_⟩
    rw [hoff, List.take_of_length_le]
    rw [List.length_drop, hb, Nat.succ_mul, Nat.add_sub_cancel_left]
  obtain ⟨p, hp, hbytes⟩ := hlast s hs
  obtain ⟨q, hq, hbytes'⟩ := hlast t ht
  cases hp.symm.trans (h.trans hq)
  rw [← hbytes, hbytes']

/-- The last plaintext Block, where the footer is, comes of the last two ciphertext Blocks. -/
theorem drop_cbcDec_congr {c : Config} (ks : KeySchedule) {a b : Bytes} (halign : a.length % c.BS = 0)
    (hlen : a.length = b.length) (hdrop : a.drop (a.length - 2 * c.BS) = b.drop (b.length - 2 * c.BS)) :
    (cbcDec c ks a).drop ((cbcDec c ks a).length - c.BS) = (cbcDec c ks b).drop ((cbcDec c ks b).length - c.BS) := by
  have ha : (cbcDec c ks a).length = a.length := length_cbcDec ks halign
  have hb : (cbcDec c ks b).length = a.length := (length_cbcDec ks (hlen ▸ halign)).trans hlen.symm
  rw [← hlen] at hdrop
  obtain ⟨N, hN⟩ : ∃ N, a.length = N * c.BS := ⟨_, (Nat.div_mul_cancel (Nat.dvd_of_mod_eq_zero halign)).symm⟩
  cases N with
  | zero =>
    rw [Nat.zero_mul] at hN
    rw [List.eq_nil_of_length_eq_zero (ha.trans hN), List.eq_nil_of_length_eq_zero (hb.trans hN)]
  | succ n =>
    have hoff : a.length - 2 * c.BS = (n - 1) * c.BS := by
      rw [hN, ← Nat.sub_mul]
      rfl
    refine drop_eq_of_last_blk_eq (ha.trans hN) (hb.trans hN) c.bs_pos (blk_cbcDec_congr ks ?_ ?_)
    · exact blk_congr_of_drop hlen hdrop (hoff.trans_le (Nat.mul_le_mul_right _ (Nat.sub_le n 1)))
    · cases n with
      | zero => rfl
      | succ n => exact blk_congr_of_drop hlen hdrop hoff.le

/-- Settles O42: the verdict reads the length and the last BS bytes of the recovered buffer. -/
theorem paddingInvalidExactlyWhenTheFooterIsBad : Obligations.PaddingInvalidExactlyWhenTheFooterIsBad := by
  refine fun c l e => ⟨?_, fun ks a b halign hlen hdrop => ?_⟩
  · rw [statusErr_cmdDecrypt, code_eq_paddingInvalid_iff, decryptF_outcome_eq_paddingInvalid_iff]
  · obtain ⟨-, -, -, -, hlast, -⟩ := unpadCheckInvertsPad c
    have hsame : (cbcDec c ks a).length = (cbcDec c ks b).length := by
      rw [length_cbcDec ks halign, length_cbcDec ks (hlen ▸ halign), hlen]
    rw [hlast _ _ hsame (drop_cbcDec_congr ks halign hlen hdrop)]

end Sys2Proof.Machine
end

section
/-! SUPPORT. The calls of the primitive that ENCRYPT and DECRYPT make on each outcome (42_cbc_engine.md R127), counted
along the trace of their block loops (R128): the statement they settle. -/

namespace Sys2Proof.Machine

theorem callCounts_map_encryptBlock {bs : Nat} {α : Type} (ks : KeySchedule) (x : α → Block bs) (l : List α) :
    callCounts (l.map fun t => .encryptBlock ks (x t)) = (0, l.length, 0) := by
  induction l with
  | nil => rfl
  | cons t l ih => simp [callCounts, ih]

theorem callCounts_map_decryptBlock {bs : Nat} {α : Type} (ks : KeySchedule) (x : α → Block bs) (l : List α) :
    callCounts (l.map fun t => .decryptBlock ks (x t)) = (0, 0, l.length) := by
  induction l with
  | nil => rfl
  | cons t l ih => simp [callCounts, ih]

section
variable (c : Config) (e : Engine c.BS)

/-- The rows of ENCRYPT in the table of R127, each with its outcome: one SetKey unless the capacity check stops the
command, one EncryptBlock for each Block of the padded input. -/
theorem callCounts_encryptCalls :
    ((encryptF c e.IN e.KEY).1 = .capacityExceeded ∧ callCounts (encryptCalls c e) = (0, 0, 0)) ∨
    ((encryptF c e.IN e.KEY).1 = .keyScheduleError ∧ callCounts (encryptCalls c e) = (1, 0, 0)) ∨
    ((encryptF c e.IN e.KEY).1 = .ok ∧ callCounts (encryptCalls c e) = (1, e.IN.length / c.BS + 1, 0)) := by
  unfold encryptCalls
  rcases encryptF_cases c e.IN e.KEY with ⟨hcap, h⟩ | ⟨hcap, hkey, h⟩ | ⟨hcap, ks, hkey, h⟩ <;>
    rw [← exceedsCapacity_iff] at hcap
  · exact .inl ⟨by rw [h], by rw [if_pos hcap]; rfl⟩
  · exact .inr (.inl ⟨by rw [h], by rw [if_neg hcap, hkey]; rfl⟩)
  · refine .inr (.inr ⟨by rw [h], ?_⟩)
    have hsteps := length_stepTrace (encStep_countsTo c ks _) (encStart_ready c ks e) (Nat.zero_add _).le
    rw [if_neg hcap, hkey, ← blockCount_padBytes]
    simp only [callCounts, callCounts_map_encryptBlock, encStart_PBUF, hsteps, Nat.zero_add]

/-- The rows of DECRYPT, each with its outcome: one SetKey unless the length check stops the command, one DecryptBlock
for each Block of the input, whatever the padding check says. -/
theorem callCounts_decryptCalls (l : Policy) :
    ((decryptF c e.IN e.KEY l).1 = .invalidInputLength ∧ callCounts (decryptCalls c e) = (0, 0, 0)) ∨
    ((decryptF c e.IN e.KEY l).1 = .keyScheduleError ∧ callCounts (decryptCalls c e) = (1, 0, 0)) ∨
    (((decryptF c e.IN e.KEY l).1 = .ok ∨ (decryptF c e.IN e.KEY l).1 = .paddingInvalid) ∧
      callCounts (decryptCalls c e) = (1, 0, e.IN.length / c.BS)) := by
  unfold decryptCalls
  rcases decryptF_cases c e.IN e.KEY l with ⟨hbad, h⟩ | ⟨hbad, hkey, h⟩ | ⟨hbad, ks, hkey, h⟩ <;>
    rw [← badLength_iff] at hbad
  · exact .inl ⟨by rw [h], by rw [if_pos hbad]; rfl⟩
  · exact .inr (.inl ⟨by rw [h], by rw [if_neg hbad, hkey]; rfl⟩)
  · refine .inr (.inr ⟨?_, ?_⟩)
    · rw [h, strip_outcome]
      cases (unpadCheck c.BS (cbcDec c ks e.IN)).2 <;> decide
    · have hsteps := length_stepTrace (decStep_countsTo c ks _) (decStart_ready c ks e) (Nat.zero_add _).le
      rw [if_neg hbad, hkey]
      simp only [callCounts, callCounts_map_decryptBlock, decStart_IN, hsteps, Nat.zero_add]
      rfl

end

/-- Settles O43: the outcome, of which ERR is the code, picks the row. -/
theorem primitiveCallsPerCommand : Obligations.PrimitiveCallsPerCommand := by
  intro c l e n encErr decErr
  have hencErr : encErr = (encryptF c e.IN e.KEY).1.code := statusErr_cmdEncrypt c e
  have hdecErr : decErr = (decryptF c e.IN e.KEY l).1.code := statusErr_cmdDecrypt c l e
  have henc : (encErr = 0#3 → callCounts (encryptCalls c e) = (1, n + 1, 0)) ∧
      (encErr = 4#3 → callCounts (encryptCalls c e) = (0, 0, 0)) ∧
      (encErr = 3#3 → callCounts (encryptCalls c e) = (1, 0, 0)) := by
    rcases callCounts_encryptCalls c e with ⟨ho, h⟩ | ⟨ho, h⟩ | ⟨ho, h⟩ <;>
      simp [hencErr, ho, h, CmdOutcome.code, n]
  have hdec : (decErr = 0#3 ∨ decErr = 2#3 → callCounts (decryptCalls c e) = (1, 0, n)) ∧
      (decErr = 1#3 → callCounts (decryptCalls c e) = (0, 0, 0)) ∧
      (decErr = 3#3 → callCounts (decryptCalls c e) = (1, 0, 0)) := by
    rcases callCounts_decryptCalls c e l with ⟨ho, h⟩ | ⟨ho, h⟩ | ⟨ho | ho, h⟩ <;>
      simp [hdecErr, ho, h, CmdOutcome.code, n]
  obtain ⟨h1, h2, h3⟩ := henc
  obtain ⟨h4, h5, h6⟩ := hdec
  exact ⟨h1, h2, h3, h4, h5, h6, rfl, rfl, rfl⟩

end Sys2Proof.Machine
end

section
/-! SUPPORT. The host operations one by one (43_primitive_and_host_interface.md R150 to R155, R162), a host whose loads
fit, and the seven statements they settle, with the one on the primitive (R142). -/

namespace Sys2Proof.Machine

/-! ### A host whose loads fit (20_memory.md R58) -/

/-- Every pending load fits its buffer. -/
def State.LoadsFit (s : State) : Prop := ∀ op ∈ s.script, op.wf Config.machine = true

theorem wf_loadIn_iff {c : Config} {b : Bytes} : (HostOp.loadIn b).wf c = true ↔ b.length ≤ c.MAXLEN := by
  simp [HostOp.wf]

theorem wf_loadKey_iff {c : Config} {k : Bytes} : (HostOp.loadKey k).wf c = true ↔ k.length ≤ c.KEYMAX := by
  simp [HostOp.wf]

/-- A well-formed operation is none of those that are refused. -/
theorem hostOp_goes_on_of_wf {op : HostOp} (h : op.wf Config.machine = true) (s : State) :
    ∃ t, hostOp op s = .next t := by
  rcases hostOp_goes_on_or_refuses_load op s with hgo | ⟨b, rfl, hb, -⟩ | ⟨k, rfl, hk, -⟩
  · exact hgo
  · exact absurd (wf_loadIn_iff.mp h) (Nat.not_le.mpr hb)
  · exact absurd (wf_loadKey_iff.mp h) (Nat.not_le.mpr hk)

/-- The only operation that a host operation puts in front, the load of MOVE_OUT_IN, is of OUT, which within capacity
fits IN. -/
theorem hostOp_keeps_loadsFit {op : HostOp} {s t : State} (hout : s.engine.OUT.length ≤ Config.machine.MAXLEN)
    (hfit : s.LoadsFit) (h : hostOp op s = .next t) : t.LoadsFit := by
  obtain ⟨hscript, -⟩ := hostOp_hostSide h
  unfold State.LoadsFit
  rw [hscript]
  split
  · exact List.forall_mem_cons.mpr ⟨wf_loadIn_iff.mpr hout, hfit⟩
  · exact hfit

theorem step_of_loadsFit {s : State} (hinv : s.Inv) (hfit : s.LoadsFit) :
    ∃ t, step s = .next t ∧ t.Inv ∧ t.LoadsFit := by
  cases hscript : s.script with
  | nil => exact ⟨s, step_nil hscript, hinv, hfit⟩
  | cons op rest =>
    unfold State.LoadsFit at hfit
    rw [hscript] at hfit
    obtain ⟨hop, hrest⟩ := List.forall_mem_cons.mp hfit
    obtain ⟨t, ht⟩ := hostOp_goes_on_of_wf hop { s with script := rest }
    have ⟨⟨_, _, hout, _⟩, _⟩ := hinv
    have hstep : step s = .next t := (step_cons hscript).trans ht
    exact ⟨t, hstep, everyStepKeepsTheInvariant s t hinv hstep,
      hostOp_keeps_loadsFit (s := { s with script := rest }) hout hrest ht⟩

/-- Settles O55: a step goes on, and keeps both the invariant and that the pending loads fit. -/
theorem hostsWhoseLoadsFitAreNeverStopped : Obligations.HostsWhoseLoadsFitAreNeverStopped := by
  intro s hinv hfit k
  induction k generalizing s with
  | zero => trivial
  | succ k ih =>
    obtain ⟨t, hstep, htinv, htfit⟩ := step_of_loadsFit hinv hfit
    exact ⟨t, hstep, ih t htinv htfit⟩

/-! ### Each operation as a whole state -/

/-- Settles O5. -/
theorem stepRunsTheDecodedCommand : Obligations.StepRunsTheDecodedCommand :=
  fun _ _ _ _ hs hw => (step_cons hs).trans (hostOp_cmd_of_decode hw)

theorem hostOp_loadIn_of_le {b : Bytes} (s : State) (h : b.length ≤ Config.machine.MAXLEN) :
    hostOp (.loadIn b) s = .next { s with engine := { s.engine with IN := b } } :=
  hLoadIn_eq_next.mpr ⟨h, rfl⟩

theorem hostOp_loadKey_of_le {k : Bytes} (s : State) (h : k.length ≤ Config.machine.KEYMAX) :
    hostOp (.loadKey k) s = .next { s with engine := { s.engine with KEY := k } } :=
  hLoadKey_eq_next.mpr ⟨h, rfl⟩

/-- Settles O10: a load that is too long cannot go on, so it is refused. -/
theorem loadInReplacesInAndNothingElse : Obligations.LoadInReplacesInAndNothingElse := by
  refine fun s b => ⟨hostOp_loadIn_of_le s, fun hlong => ?_⟩
  rcases hLoadIn_cases b s with ⟨t, ht⟩ | ⟨-, hrefused⟩
  · exact absurd (hLoadIn_eq_next.mp ht).1 (Nat.not_le.mpr hlong)
  · exact hrefused

/-- Settles O11, as `loadInReplacesInAndNothingElse` does for IN. -/
theorem loadKeyReplacesKeyAndNothingElse : Obligations.LoadKeyReplacesKeyAndNothingElse := by
  refine fun s k => ⟨hostOp_loadKey_of_le s, fun hlong => ?_⟩
  rcases hLoadKey_cases k s with ⟨t, ht⟩ | ⟨-, hrefused⟩
  · exact absurd (hLoadKey_eq_next.mp ht).1 (Nat.not_le.mpr hlong)
  · exact hrefused

theorem hostOp_readStatus (s : State) : hostOp .readStatus s = .next (s.returning (.word s.engine.STATUS)) := rfl

theorem hostOp_readOut (s : State) : hostOp .readOut s = .next (s.returning (.bytes s.engine.OUT)) := rfl

theorem hostOp_readKeyLen (s : State) : hostOp .readKeyLen s = .next (s.returning (.number (keyLen s.engine))) := rfl

/-- Settles O12. -/
theorem hostReadsReturnTheirRegisterAndChangeNothing : Obligations.HostReadsReturnTheirRegisterAndChangeNothing :=
  fun s => ⟨hostOp_readStatus s, hostOp_readOut s, hostOp_readOutLen s, hostOp_readInLen s, hostOp_readKeyLen s⟩

theorem hostOp_moveOutIn (s : State) :
    hostOp .moveOutIn s = .next ((s.returning (.bytes s.engine.OUT)).pushOp (.loadIn s.engine.OUT)) := rfl

/-- Settles O14: the read leaves the load of OUT pending, which the second step performs. -/
theorem moveOutInReadsOutAndThenLoadsIt : Obligations.MoveOutInReadsOutAndThenLoadsIt := by
  intro s rest hs hout
  refine ⟨_, (step_cons hs).trans (hostOp_moveOutIn _), rfl, ?_⟩
  rw [step_cons (State.pushOp_script _ _)]
  exact hostOp_loadIn_of_le _ hout

/-! ### The primitive (R142) -/

/-- Settles O29. -/
theorem decryptBlockInvertsEncryptBlock : Obligations.DecryptBlockInvertsEncryptBlock :=
  fun _ ks x => ⟨decryptBlock_encryptBlock ks x, encryptBlock_decryptBlock ks x⟩

end Sys2Proof.Machine
end

section
/-! SUPPORT. The commands against the pure functions (43_primitive_and_host_interface.md R143), the calls made of them
(R160, R161), and what the host owes and why it reads STATUS first (R158): the five statements they settle. -/

namespace Sys2Proof.Machine

/-! ### Every command computes its pure function (R143) -/

section
variable (c : Config)

/-- The pure function of a command (R143): its outcome and OUT for the IN and KEY it finds. -/
def commandF (i : Instr) (input key : Bytes) : CmdOutcome × Bytes :=
  match i with
  | .pad => padF c input
  | .unpad l => unpadF c input l
  | .encrypt => encryptF c input key
  | .decrypt l => decryptF c input key l

theorem cmdPad_eq_settled (e : Engine c.BS) :
    cmdPad c e = e.settled e.KEY (padF c e.IN).2 (statusWord false (padF c e.IN).1) := by
  rw [cmdPad_eq, padF]
  split
  · rw [statusWord_capacityExceeded]
  · rw [statusWord_ok]

theorem cmdUnpad_eq_settled (l : Policy) (e : Engine c.BS) :
    cmdUnpad c l e =
      e.settled e.KEY (unpadF c e.IN l).2
        (statusWord (validBit (some (.unpad l)) (unpadF c e.IN l).1) (unpadF c e.IN l).1) := by
  rw [cmdUnpad_eq, unpadF]
  split
  · rw [statusWord_of_error _ (by decide), statusWord_invalidInputLength]
  · split
    · next hvalid => rw [strip_of_valid hvalid, validBit_ok, checksPadding_unpad, statusWord_ok_valid]
    · next hinvalid =>
      rw [strip_of_invalid (Bool.eq_false_iff.mpr hinvalid), statusWord_of_error _ (o := .paddingInvalid) (by decide),
        statusWord_paddingInvalid]

theorem validBit_of_no_check {i : Instr} (h : checksPadding i = false) (o : CmdOutcome) :
    validBit (some i) o = false := by
  rw [validBit, h, Bool.false_and]

/-- Everything a command does to an engine, in one equation for all of them. -/
theorem runCmd_eq_settled (i : Instr) (e : Engine c.BS) :
    runCmd c i e =
      e.settled (if consumesKey (some i) then [] else e.KEY) (commandF c i e.IN e.KEY).2
        (statusWord (validBit (some i) (commandF c i e.IN e.KEY).1) (commandF c i e.IN e.KEY).1) := by
  cases i with
  | pad =>
    rw [validBit_of_no_check checksPadding_pad]
    exact cmdPad_eq_settled c e
  | unpad l => exact cmdUnpad_eq_settled c l e
  | encrypt =>
    rw [validBit_of_no_check checksPadding_encrypt]
    exact cmdEncrypt_eq_settled c e
  | decrypt l => exact cmdDecrypt_eq_settled c l e

theorem statusErr_runCmd (i : Instr) (e : Engine c.BS) :
    statusErr (runCmd c i e).STATUS = (commandF c i e.IN e.KEY).1.code := by
  rw [runCmd_eq_settled, Engine.settled_STATUS, statusErr_statusWord]

theorem runCmd_OUT (i : Instr) (e : Engine c.BS) : (runCmd c i e).OUT = (commandF c i e.IN e.KEY).2 := by
  rw [runCmd_eq_settled, Engine.settled_OUT]

/-- The equivalence of R143 for the word of any command. -/
theorem cmdWord_encode_computes_commandF (i : Instr) (e : Engine c.BS) :
    let r := cmdWord c (encode i) e
    statusErr r.STATUS = (commandF c i e.IN e.KEY).1.code ∧ r.OUT = (commandF c i e.IN e.KEY).2 ∧
      r.KEY = (if consumesKey (some i) then [] else e.KEY) ∧ r.IN = e.IN := by
  intro r
  have hr : r = runCmd c i e := by simp [r, cmdWord]
  rw [hr]
  exact ⟨statusErr_runCmd c i e, runCmd_OUT c i e, by rw [runCmd_eq_settled, Engine.settled_KEY],
    by rw [runCmd_eq_settled, Engine.settled_IN]⟩

end

/-- Settles O44: the one equivalence for all commands, read at each of the four. -/
theorem commandsComputeTheSpecFunctions : Obligations.CommandsComputeTheSpecFunctions :=
  fun c e l =>
    ⟨cmdWord_encode_computes_commandF c .encrypt e, cmdWord_encode_computes_commandF c (.decrypt l) e,
      cmdWord_encode_computes_commandF c .pad e, cmdWord_encode_computes_commandF c (.unpad l) e⟩

/-! ### The calls of R160 and R161 -/

/-- What a call returns for the answer of its pure function: the bytes on OK, else the code. -/
def replyOf (r : CmdOutcome × Bytes) : Except (BitVec 3) Bytes :=
  match r with
  | (.ok, out) => .ok out
  | (o, _) => .error o.code

/-- A host that reads STATUS before OUT learns of a command exactly what its pure function answers. -/
theorem callResult_runCmd (c : Config) (i : Instr) (e : Engine c.BS) :
    callResult (runCmd c i e) = replyOf (commandF c i e.IN e.KEY) := by
  rw [callResult, statusErr_runCmd, runCmd_OUT]
  rcases commandF c i e.IN e.KEY with ⟨o, out⟩
  cases o <;> rfl

/-- Staging both operands and issuing a command (30_encoding.md R81) runs it on exactly these operands. -/
theorem runOps_stage_then_command {c : Config} {input key : Bytes} (hin : input.length ≤ c.MAXLEN)
    (hkey : key.length ≤ c.KEYMAX) (i : Instr) (e : Engine c.BS) :
    runOps c [.loadIn input, .loadKey key, .cmd (encode i)] e =
      some (runCmd c i { e with IN := input, KEY := key }) := by
  rw [runOps_cons (opOnEngine_loadIn_of_le _ hin), runOps_cons (opOnEngine_loadKey_of_le _ hkey),
    runOps_cons (opOnEngine_cmd_encode c _ i), runOps]

theorem encryptCall_eq {c : Config} {P K : Bytes} (hP : P.length ≤ c.MAXLEN) (hK : K.length ≤ c.KEYMAX)
    (e : Engine c.BS) :
    encryptCall c P K e =
      some (runCmd c .encrypt { e with IN := P, KEY := K }, replyOf (encryptF c P K)) := by
  have hrun : runOps c [.loadIn P, .loadKey K, .cmd 0x02#8] e = _ := runOps_stage_then_command hP hK .encrypt e
  rw [encryptCall, hrun]
  dsimp only
  rw [callResult_runCmd]
  rfl

theorem decryptCall_eq {c : Config} {C K : Bytes} (hC : C.length ≤ c.MAXLEN) (hK : K.length ≤ c.KEYMAX) (l : Policy)
    (e : Engine c.BS) :
    decryptCall c l C K e =
      some (runCmd c (.decrypt l) { e with IN := C, KEY := K }, replyOf (decryptF c C K l)) := by
  rw [decryptCall, runOps_stage_then_command hC hK]
  dsimp only
  rw [callResult_runCmd]
  rfl

theorem length_encryptF_of_ok {c : Config} {P K : Bytes} (h : (encryptF c P K).1 = .ok) :
    (encryptF c P K).2.length = P.length + padCount c.BS P.length := by
  rcases encryptF_cases c P K with ⟨-, hF⟩ | ⟨-, -, hF⟩ | ⟨-, ks, -, hF⟩
  · simp [hF] at h
  · simp [hF] at h
  · rw [hF, length_cbcEnc_padBytes, length_add_padCount c.bs_pos]

/-- Settles O45: the call runs ENCRYPT on the operands it staged. -/
theorem encryptCallReturnsCiphertextOrCode : Obligations.EncryptCallReturnsCiphertextOrCode := by
  refine fun c P K e hP hK => ⟨_, encryptCall_eq hP hK e, fun hok => ?_⟩
  rw [outLen, runCmd_OUT]
  exact length_encryptF_of_ok hok

/-- Settles O46: the call runs DECRYPT on the operands it staged. -/
theorem decryptCallReturnsPlaintextOrCode : Obligations.DecryptCallReturnsPlaintextOrCode :=
  fun c l _ _ e hC hK => ⟨_, decryptCall_eq hC hK l e, runCmd_OUT c (.decrypt l) _⟩

/-! ### What the host owes (R158) -/

section
variable {c : Config} {e e' : Engine c.BS} {k : Option Bytes}

/-- The staged key, if there is one, is what KEY holds. -/
def HoldsStaged (k : Option Bytes) (e : Engine c.BS) : Prop := ∀ b, k = some b → e.KEY = b

theorem loadIn_KEY {s : Bytes} (h : loadIn c s e = some e') : e'.KEY = e.KEY := by
  rcases loadIn_cases c s e with ⟨-, he⟩ | ⟨-, he⟩
  · cases he.symm.trans h
    rfl
  · cases he.symm.trans h

theorem loadKey_KEY {b : Bytes} (h : loadKey c b e = some e') : e'.KEY = b := by
  rcases loadKey_cases c b e with ⟨-, he⟩ | ⟨-, he⟩
  · cases he.symm.trans h
    rfl
  · cases he.symm.trans h

/-- What is staged is what KEY holds across every operation: a load stages the key it writes, and where an operation
empties KEY nothing stays staged. -/
theorem opOnEngine_keeps_holdsStaged {op : HostOp} (hop : opOnEngine c op e = some e') (h : HoldsStaged k e) :
    HoldsStaged (stagedKey k op) e' := by
  cases op with
  | loadIn b | moveOutIn => exact fun b hb => (loadIn_KEY hop).trans (h b hb)
  | loadKey key =>
    rintro b ⟨⟩
    exact loadKey_KEY hop
  | cmd w =>
    cases hop
    intro b hb
    rw [stagedKey] at hb
    rw [cmdWord_KEY]
    split at hb
    · cases hb
    · next hkeeps => rw [if_neg hkeeps, h b hb]
  | readStatus | readOut | readOutLen | readInLen | readKeyLen =>
    cases hop
    exact h
  | reset => rintro b ⟨⟩

theorem runOps_keeps_holdsStaged {ops : List HostOp} (hrun : runOps c ops e = some e') (h : HoldsStaged k e) :
    HoldsStaged (ops.foldl stagedKey k) e' := by
  induction ops generalizing k e with
  | nil =>
    cases hrun
    exact h
  | cons op ops ih =>
    rw [runOps] at hrun
    split at hrun
    · cases hrun
    · next hop => exact ih hrun (opOnEngine_keeps_holdsStaged hop h)

/-- Meeting the duties along a sequence is running its first part, and then meeting them along the rest. -/
theorem meetsDuties_append {before rest : List HostOp} (h : meetsDuties c k (before ++ rest) e = true) :
    ∃ e', runOps c before e = some e' ∧ meetsDuties c (before.foldl stagedKey k) rest e' = true := by
  induction before generalizing k e with
  | nil => exact ⟨e, rfl, h⟩
  | cons op before ih =>
    obtain ⟨-, e₁, hop, hrest⟩ := meetsDuties_cons.mp h
    rw [runOps_cons hop]
    exact ih hrest

theorem strip_ne_capacityExceeded (bs : Nat) (b : Bytes) (l : Policy) : (strip bs b l).1 ≠ .capacityExceeded := by
  rw [strip_outcome]
  split <;> decide

/-- PAD and ENCRYPT of an input below MAXLEN have room for its padding, and the other two make no capacity check. -/
theorem commandF_ne_capacityExceeded {i : Instr} (h : commandDuty c k i e = true) :
    (commandF c i e.IN e.KEY).1 ≠ .capacityExceeded := by
  cases i with
  | pad =>
    have hin : e.IN.length < c.MAXLEN := of_decide_eq_true h
    rw [commandF, padF, if_neg (Nat.not_lt.mpr (padded_le_maxlen hin))]
    simp
  | unpad l =>
    rw [commandF, unpadF]
    split
    · decide
    · exact strip_ne_capacityExceeded _ _ l
  | encrypt =>
    have hin : e.IN.length < c.MAXLEN := of_decide_eq_true (Bool.and_elim_right h)
    rw [commandF]
    rcases encryptF_cases c e.IN e.KEY with ⟨hcap, -⟩ | ⟨-, -, hF⟩ | ⟨-, ks, -, hF⟩
    · exact absurd hcap (Nat.not_lt.mpr (padded_le_maxlen hin))
    · simp [hF]
    · simp [hF]
  | decrypt l =>
    rw [commandF]
    rcases decryptF_cases c e.IN e.KEY l with ⟨-, hF⟩ | ⟨-, -, hF⟩ | ⟨-, ks, -, hF⟩ <;> rw [hF]
    · decide
    · decide
    · exact strip_ne_capacityExceeded _ _ l

theorem code_eq_capacityExceeded_iff {o : CmdOutcome} :
    o.code = CmdOutcome.capacityExceeded.code ↔ o = .capacityExceeded := by
  cases o <;> decide

theorem cmdWord_ne_capacityExceeded {w : BitVec 8} (h : opDuty c k (.cmd w) e = true) :
    statusErr (cmdWord c w e).STATUS ≠ CmdOutcome.capacityExceeded.code := by
  cases hw : decode w with
  | ok i =>
    rw [opDuty_cmd hw] at h
    simpa only [cmdWord, hw, statusErr_runCmd, ne_eq, code_eq_capacityExceeded_iff] using commandF_ne_capacityExceeded h
  | error r =>
    simp only [cmdWord, hw, cmdIllegal_eq_settled, Engine.settled_STATUS]
    decide

/-- The duty before ENCRYPT and DECRYPT is that a key is staged. -/
theorem exists_staged_of_consumesKey {w : BitVec 8} (h : opDuty c k (.cmd w) e = true)
    (hw : decode w = .ok .encrypt ∨ ∃ l, decode w = .ok (.decrypt l)) : ∃ b, k = some b := by
  rcases hw with hw | ⟨l, hw⟩ <;> rw [opDuty_cmd hw] at h
  · exact Option.isSome_iff_exists.mp (Bool.and_elim_left h)
  · exact Option.isSome_iff_exists.mp h

end

/-- Settles O59: the operations before the command run, along them what is staged is what KEY holds, and the duty owed
to the command is met on the engine they leave. -/
theorem hostMeetingItsDutiesIsKeyedAndWithinCapacity : Obligations.HostMeetingItsDutiesIsKeyedAndWithinCapacity := by
  rintro c _ before after w e hmeets rfl
  obtain ⟨e', hrun, hrest⟩ := meetsDuties_append hmeets
  obtain ⟨hduty, -⟩ := meetsDuties_cons.mp hrest
  have hstaged : HoldsStaged (before.foldl stagedKey none) e' := runOps_keeps_holdsStaged hrun (by rintro b ⟨⟩)
  refine ⟨e', hrun, cmdWord_ne_capacityExceeded hduty, fun hw => ?_⟩
  obtain ⟨b, hb⟩ := exists_staged_of_consumesKey hduty hw
  rw [hb, hstaged b hb]

/-! ### STATUS before OUT (R158) -/

section
variable {c : Config} {e : Engine c.BS} {i : Instr} {out : Bytes}

theorem runCmd_of_commandF_ok (hcheck : checksPadding i = true) (h : commandF c i e.IN e.KEY = (.ok, out)) :
    (runCmd c i e).OUT = out ∧ (runCmd c i e).STATUS = 0x18#8 ∧ callResult (runCmd c i e) = .ok out := by
  refine ⟨by rw [runCmd_OUT, h], ?_, by rw [callResult_runCmd, h, replyOf]⟩
  rw [runCmd_eq_settled, h, validBit_ok, hcheck, Engine.settled_STATUS, statusWord_ok_valid]

theorem runCmd_of_commandF_paddingInvalid (h : commandF c i e.IN e.KEY = (.paddingInvalid, out)) :
    (runCmd c i e).OUT = out ∧ (runCmd c i e).STATUS = 0x12#8 ∧
      callResult (runCmd c i e) = .error CmdOutcome.paddingInvalid.code := by
  refine ⟨by rw [runCmd_OUT, h], ?_, by rw [callResult_runCmd, h]; rfl⟩
  rw [runCmd_eq_settled, h, Engine.settled_STATUS, statusWord_of_error _ (o := .paddingInvalid) (by decide),
    statusWord_paddingInvalid]

/-- One Block passes the length check of UNPAD and DECRYPT. -/
theorem goodLength_of_oneBlock {b : Bytes} (hb : b.length = c.BS) : ¬ (b.length = 0 ∨ b.length % c.BS ≠ 0) := by
  have := c.bs_pos
  rw [hb, Nat.mod_self]
  omega

theorem unpadF_of_oneBlock {b : Bytes} (hb : b.length = c.BS) (l : Policy) : unpadF c b l = strip c.BS b l :=
  if_neg (goodLength_of_oneBlock hb)

/-- DECRYPT of the encryption of one Block, under the same schedule, answers as UNPAD does of the Block. -/
theorem decryptF_cbcEnc_of_oneBlock {b K : Bytes} {ks : KeySchedule} (hb : b.length = c.BS)
    (hkey : c.prim.setKey K = some ks) (l : Policy) :
    decryptF c (cbcEnc c ks b) K l = strip c.BS b l := by
  have halign : b.length % c.BS = 0 := by rw [hb, Nat.mod_self]
  have hgood : ¬ ((cbcEnc c ks b).length = 0 ∨ (cbcEnc c ks b).length % c.BS ≠ 0) :=
    goodLength_of_oneBlock ((length_cbcEnc ks halign).trans hb)
  rw [decryptF, if_neg hgood, hkey]
  dsimp only
  rw [cbcDec_cbcEnc ks halign]

end

/-- A Block of zeros ends in no footer: its last byte is not in 1..BS. -/
theorem strip_replicate_zero (c : Config) (l : Policy) :
    strip c.BS (List.replicate c.BS 0x00#8) l =
      (.paddingInvalid, if l = .lenient then List.replicate c.BS 0x00#8 else []) := by
  have hlast : (List.replicate c.BS 0x00#8).getLast? = some 0x00#8 := by
    rw [List.getLast?_replicate, if_neg (Nat.one_le_iff_ne_zero.mp c.bs_pos)]
  have hinvalid := unpadCheck_of_getLast? (bs := c.BS) hlast fun h => absurd h.pos (by decide)
  exact strip_of_invalid (congrArg Prod.snd hinvalid) l

theorem length_padBytes_nil (c : Config) : (padBytes c.BS []).length = c.BS := by
  rw [length_padBytes_eq_mul, List.length_nil, Nat.zero_div, Nat.zero_add, Nat.one_mul]

/-- Settles O60: UNPAD answers what Strip says of the Block in IN, and DECRYPT what it says of the Block that the one in
IN is the encryption of. -/
theorem statusTellsWhatOutAloneCannot : Obligations.StatusTellsWhatOutAloneCannot := by
  intro c e K ks hkey empty broken good bad command hmem run
  have hempty : empty.length = c.BS := length_padBytes_nil c
  have hbroken : broken.length = c.BS := List.length_replicate
  obtain ⟨hcheck, hgood, hbad⟩ : (∀ l, checksPadding (command l) = true) ∧
      (∀ l, commandF c (command l) good K = strip c.BS empty l) ∧
      (∀ l, commandF c (command l) bad K = strip c.BS broken l) := by
    simp only [List.mem_cons, Prod.mk.injEq, List.not_mem_nil, or_false] at hmem
    rcases hmem with ⟨rfl, rfl, rfl⟩ | ⟨rfl, rfl, rfl⟩
    · exact ⟨checksPadding_unpad, unpadF_of_oneBlock hempty, unpadF_of_oneBlock hbroken⟩
    · exact ⟨checksPadding_decrypt, decryptF_cbcEnc_of_oneBlock hempty hkey,
        decryptF_cbcEnc_of_oneBlock hbroken hkey⟩
  have hfails (l : Policy) := (hbad l).trans (strip_replicate_zero c l)
  refine ⟨fun l => runCmd_of_commandF_ok (hcheck l) ((hgood l).trans (strip_padBytes c [] l)),
    runCmd_of_commandF_paddingInvalid (hfails .strict), ?_⟩
  obtain ⟨hout, hrest⟩ : (run bad .lenient).OUT = broken ∧ _ :=
    runCmd_of_commandF_paddingInvalid (hfails .lenient)
  refine ⟨hout, ?_, hrest⟩
  rw [hout, ← List.length_pos_iff, hbroken]
  exact c.bs_pos

end Sys2Proof.Machine
end

section
/-! SUPPORT. What a command reports and what it delivers on each outcome (60_exceptions.md R170 to R184), with the
illegal word and the idle step: the five statements they settle. -/

namespace Sys2Proof.Machine

/-! ### The illegal word (R174) and the idle step (R184) -/

theorem cmdWord_of_decode_ok {c : Config} {w : BitVec 8} {i : Instr} (h : decode w = .ok i) (e : Engine c.BS) :
    cmdWord c w e = runCmd c i e := by
  simp [cmdWord, h]

theorem cmdWord_of_decode_error {c : Config} {w : BitVec 8} {r : IllegalWord} (h : decode w = .error r)
    (e : Engine c.BS) : cmdWord c w e = e.settled e.KEY [] 0x15#8 := by
  simp [cmdWord, h, cmdIllegal_eq_settled]

/-- Settles O8. -/
theorem illegalWordIsReportedAndTouchesNothingElse : Obligations.IllegalWordIsReportedAndTouchesNothingElse := by
  refine fun s w r hw => ⟨?_, rfl⟩
  rw [hostOp, hCmd_eq_onEngine_cmdWord, State.onEngine, cmdWord_of_decode_error hw]

/-- Settles O9. -/
theorem idleStepKeepsTheState : Obligations.IdleStepKeepsTheState := fun _ => step_nil

/-! ### The order of the causes (R177) -/

section
variable (c : Config)

theorem code_padF (P : Bytes) :
    (padF c P).1.code =
      if c.MAXLEN < P.length + padCount c.BS P.length then CmdOutcome.capacityExceeded.code
      else CmdOutcome.ok.code := by
  unfold padF
  split <;> rfl

theorem code_strip (bs : Nat) (b : Bytes) (l : Policy) :
    (strip bs b l).1.code =
      if (unpadCheck bs b).2 = false then CmdOutcome.paddingInvalid.code else CmdOutcome.ok.code := by
  rw [strip_outcome]
  cases (unpadCheck bs b).2 <;> rfl

theorem code_unpadF (b : Bytes) (l : Policy) :
    (unpadF c b l).1.code =
      if b.length = 0 ∨ b.length % c.BS ≠ 0 then CmdOutcome.invalidInputLength.code
      else if (unpadCheck c.BS b).2 = false then CmdOutcome.paddingInvalid.code
      else CmdOutcome.ok.code := by
  rw [← code_strip c.BS b l, unpadF]
  split <;> rfl

end

/-- Settles O47: ERR is the code of the command's pure function, whose answers stand in the order of the causes. -/
theorem firstApplicableErrorIsReported : Obligations.FirstApplicableErrorIsReported := by
  intro c w e
  cases hw : decode w with
  | error r =>
    rw [cmdWord_of_decode_error hw, Engine.settled_STATUS, ← statusWord_illegalCommand, statusErr_statusWord]
  | ok i =>
    rw [cmdWord_of_decode_ok hw, statusErr_runCmd]
    cases i with
    | pad => exact code_padF c e.IN
    | unpad l => exact code_unpadF c e.IN l
    | encrypt =>
      rw [commandF]
      rcases encryptF_cases c e.IN e.KEY with ⟨hcap, hF⟩ | ⟨hcap, hkey, hF⟩ | ⟨hcap, ks, hkey, hF⟩
      · simp only [hF, if_pos hcap]
      · simp only [hF, if_neg hcap, hkey]
      · simp only [hF, if_neg hcap, hkey]
    | decrypt l =>
      rw [commandF]
      rcases decryptF_cases c e.IN e.KEY l with ⟨hbad, hF⟩ | ⟨hgood, hkey, hF⟩ | ⟨hgood, ks, hkey, hF⟩
      · simp only [hF, if_pos hbad]
      · simp only [hF, if_neg hgood, hkey]
      · simp only [hF, if_neg hgood, hkey, code_strip]

/-! ### No partial output (R178) -/

/-- Strip delivers nothing unless the buffer is valid or the policy lenient. -/
theorem strip_out_eq_nil {bs : Nat} {b : Bytes} {l : Policy} (hne : (strip bs b l).1 ≠ .ok)
    (hl : ¬ ((strip bs b l).1 = .paddingInvalid ∧ l = .lenient)) : (strip bs b l).2 = [] := by
  cases hvalid : (unpadCheck bs b).2 with
  | true => exact absurd (congrArg Prod.fst (strip_of_valid hvalid l)) hne
  | false =>
    rw [strip_of_invalid hvalid] at hl ⊢
    exact if_neg fun hlenient => hl ⟨rfl, hlenient⟩

/-- A pure function that answers an error answers no bytes, except for a lenient PaddingInvalid. -/
theorem commandF_out_eq_nil {c : Config} {i : Instr} {input key : Bytes} (hne : (commandF c i input key).1 ≠ .ok)
    (hl : ¬ ((commandF c i input key).1 = .paddingInvalid ∧ (i = .unpad .lenient ∨ i = .decrypt .lenient))) :
    (commandF c i input key).2 = [] := by
  cases i with
  | pad =>
    rw [commandF, padF] at hne ⊢
    split at hne
    · next hcap => rw [if_pos hcap]
    · exact absurd rfl hne
  | unpad l =>
    rw [commandF, unpadF] at hne hl ⊢
    split at hne
    · next hbad => rw [if_pos hbad]
    · next hgood =>
      rw [if_neg hgood] at hl ⊢
      exact strip_out_eq_nil hne fun ⟨ho, h⟩ => hl ⟨ho, .inl (congrArg Instr.unpad h)⟩
  | encrypt =>
    rw [commandF] at hne ⊢
    rcases encryptF_cases c input key with ⟨-, hF⟩ | ⟨-, -, hF⟩ | ⟨-, ks, -, hF⟩ <;> rw [hF] at hne ⊢
    exact absurd rfl hne
  | decrypt l =>
    rw [commandF] at hne hl ⊢
    rcases decryptF_cases c input key l with ⟨-, hF⟩ | ⟨-, -, hF⟩ | ⟨-, ks, -, hF⟩ <;> rw [hF] at hne hl ⊢
    exact strip_out_eq_nil hne fun ⟨ho, h⟩ => hl ⟨ho, .inr (congrArg Instr.decrypt h)⟩

/-- Settles O48: an illegal word settles OUT empty, and a command delivers what its pure function answers; PBUF is idle
after both. -/
theorem errorsLeaveNoPartialOutput : Obligations.ErrorsLeaveNoPartialOutput := by
  intro c w e
  obtain ⟨-, -, -, -, hpbuf⟩ := cmdWord_idle c w e
  refine ⟨fun hne hl => ?_, hpbuf⟩
  cases hw : decode w with
  | error r => rw [cmdWord_of_decode_error hw, Engine.settled_OUT]
  | ok i =>
    rw [cmdWord_of_decode_ok hw, statusErr_runCmd] at hne hl
    rw [hw, Except.ok.injEq, Except.ok.injEq, code_eq_paddingInvalid_iff] at hl
    rw [cmdWord_of_decode_ok hw, runCmd_OUT]
    exact commandF_out_eq_nil (mt code_eq_zero_iff.mpr hne) hl

/-! ### Both policies on a failed padding check (R181) -/

/-- A command that strips a buffer `b` as long as IN, and finds its padding bad, reports so under both policies, and
delivers `b` whole or nothing. -/
theorem runCmd_delivers_unstripped_by_policy {c : Config} {e : Engine c.BS} {command : Policy → Instr} {b : Bytes}
    (hF : ∀ l, commandF c (command l) e.IN e.KEY = strip c.BS b l) (hinvalid : (unpadCheck c.BS b).2 = false)
    (hlen : b.length = e.IN.length) :
    (runCmd c (command .lenient) e).STATUS = 0x12#8 ∧ (runCmd c (command .lenient) e).OUT = b ∧
      outLen (runCmd c (command .lenient) e) = inLen e ∧
      (runCmd c (command .strict) e).STATUS = 0x12#8 ∧ (runCmd c (command .strict) e).OUT = [] := by
  have hfails (l : Policy) := (hF l).trans (strip_of_invalid hinvalid l)
  obtain ⟨hout, hst, -⟩ := runCmd_of_commandF_paddingInvalid (hfails .lenient)
  obtain ⟨hout', hst', -⟩ := runCmd_of_commandF_paddingInvalid (hfails .strict)
  exact ⟨hst, hout, (congrArg List.length hout).trans hlen, hst', hout'⟩

/-- Settles O49: on an IN that passes the length check UNPAD strips IN, and DECRYPT the buffer it recovers, which is as
long. -/
theorem lenientPolicyDeliversTheUnstrippedBuffer : Obligations.LenientPolicyDeliversTheUnstrippedBuffer := by
  intro c e hne halign
  have hgood : ¬ (e.IN.length = 0 ∨ e.IN.length % c.BS ≠ 0) := not_or_intro hne (not_not_intro halign)
  refine ⟨fun hinvalid => ?_, fun ks hkey hinvalid => ?_⟩
  · exact runCmd_delivers_unstripped_by_policy (command := .unpad) (fun l => if_neg hgood) hinvalid rfl
  · have hF (l : Policy) : commandF c (.decrypt l) e.IN e.KEY = strip c.BS (cbcDec c ks e.IN) l := by
      rw [commandF, decryptF, if_neg hgood, hkey]
    exact runCmd_delivers_unstripped_by_policy hF hinvalid (length_cbcDec ks halign)

end Sys2Proof.Machine
end

section
/-! SUPPORT. The commands straight after reset (70_reset_and_hazards.md R202): a message of one Block under CBC, and the
statement it settles. -/

namespace Sys2Proof.Machine

/-- The all-zero IV (42_cbc_engine.md R116) leaves the first Block as it is, so a message of one Block is enciphered by
one call of the primitive on the Block itself. -/
theorem cbcEnc_oneBlock (c : Config) (ks : KeySchedule) (p : Block c.BS) :
    cbcEnc c ks p.1 = (encryptBlock c ks p).1 := by
  have hblocks : blocksOf c.BS p.1 = [p] := by
    simpa only [joinBlocks_cons, joinBlocks_nil, List.append_nil] using blocksOf_joinBlocks c.bs_pos [p]
  rw [cbcEnc, hblocks, encBlocks_cons, encBlocks_nil, xorBlock_zeroBlock, joinBlocks_cons, joinBlocks_nil,
    List.append_nil]

/-- Settles O22: the empty IN of reset has room for its padding, which is one whole Block, and no length that UNPAD and
DECRYPT accept. -/
theorem commandsStraightAfterReset : Obligations.CommandsStraightAfterReset := by
  have hfits : ¬ Config.machine.MAXLEN < State.reset.engine.IN.length +
      padCount Config.machine.BS State.reset.engine.IN.length :=
    Nat.not_lt.mpr (padded_le_maxlen Config.machine.maxlen_pos)
  have hbad : State.reset.engine.IN.length = 0 ∨ State.reset.engine.IN.length % Config.machine.BS ≠ 0 := .inl rfl
  have hpad : padBytes Config.machine.BS (Engine.reset Config.machine.BS).IN = List.replicate 8 0x08#8 := rfl
  refine ⟨?_, fun l => ?_, fun l => ?_, ?_⟩
  · rw [exec_pad, cmdPad_eq, if_neg hfits, State.reset_engine, hpad, Engine.reset_KEY]
  · rw [exec_unpad, cmdUnpad_eq, if_pos hbad, State.reset_engine, Engine.reset_KEY]
  · rw [exec_decrypt, cmdDecrypt_eq_settled, decryptF, if_pos hbad, statusWord_of_error _ (by decide),
      statusWord_invalidInputLength]
  · rw [exec_encrypt, cmdEncrypt_eq_settled, encryptF, if_neg hfits, State.reset_engine, hpad, Engine.reset_KEY]
    cases Config.machine.prim.setKey [] with
    | none => rw [statusWord_keyScheduleError]
    | some ks =>
      have hone : cbcEnc Config.machine ks (List.replicate 8 0x08#8) = _ :=
        cbcEnc_oneBlock Config.machine ks ⟨List.replicate 8 0x08#8, rfl⟩
      dsimp only
      rw [hone, statusWord_ok]

end Sys2Proof.Machine
end

section
/-! SUPPORT. The machine is the engine of `Config.machine` (00_scope.md section 4): its commands and host operations are
those that 43_primitive_and_host_interface.md section 2 gives an engine of any configuration. -/

namespace Sys2Proof.Machine

/-- A command on the machine is that command on its engine. -/
theorem exec_eq_onEngine_runCmd (i : Instr) (s : State) :
    exec i s = .next (s.onEngine (runCmd Config.machine i)) := by
  cases i with
  | pad => exact exec_pad s
  | unpad l => exact exec_unpad l s
  | encrypt => exact exec_encrypt s
  | decrypt l => exact exec_decrypt l s

/-- What an operation that goes on leaves of the engine. MOVE_OUT_IN is excepted: on the machine it leaves its load
pending (43_primitive_and_host_interface.md R162), where `opOnEngine` performs it. -/
theorem opOnEngine_of_hostOp_next {op : HostOp} {s t : State} (hop : op ≠ .moveOutIn) (h : hostOp op s = .next t) :
    opOnEngine Config.machine op s.engine = some t.engine := by
  cases op with
  | loadIn b =>
    obtain ⟨hb, rfl⟩ := hLoadIn_eq_next.mp h
    exact opOnEngine_loadIn_of_le s.engine hb
  | loadKey k =>
    obtain ⟨hk, rfl⟩ := hLoadKey_eq_next.mp h
    exact opOnEngine_loadKey_of_le s.engine hk
  | cmd w =>
    cases (hCmd_eq_onEngine_cmdWord w s).symm.trans h
    rfl
  | readStatus | readOut | readOutLen | readInLen | readKeyLen | reset =>
    cases h
    rfl
  | moveOutIn => exact absurd rfl hop

theorem opOnEngine_loadIn_of_lt {c : Config} {b : Bytes} (e : Engine c.BS) (h : c.MAXLEN < b.length) :
    opOnEngine c (.loadIn b) e = none := if_neg (Nat.not_le.mpr h)

theorem opOnEngine_loadKey_of_lt {c : Config} {k : Bytes} (e : Engine c.BS) (h : c.KEYMAX < k.length) :
    opOnEngine c (.loadKey k) e = none := if_neg (Nat.not_le.mpr h)

/-- Settles O21: a pending operation either goes on, with the engine it leaves, or is a load over capacity, which is
refused and is not defined on the engine either. -/
theorem machineIsTheEngineOfItsConfiguration : Obligations.MachineIsTheEngineOfItsConfiguration := by
  refine ⟨exec_eq_onEngine_runCmd, fun s op rest hs hop => ?_⟩
  rw [step_cons hs]
  rcases hostOp_goes_on_or_refuses_load op { s with script := rest } with
    ⟨t, ht⟩ | ⟨b, rfl, hb, hrefused⟩ | ⟨k, rfl, hk, hrefused⟩
  · have hengine : opOnEngine Config.machine op s.engine = some t.engine :=
      opOnEngine_of_hostOp_next (s := { s with script := rest }) hop ht
    rw [hengine]
    exact ⟨t, ht, rfl⟩
  · rw [opOnEngine_loadIn_of_lt s.engine hb]
    exact ⟨_, hrefused⟩
  · rw [opOnEngine_loadKey_of_lt s.engine hk]
    exact ⟨_, hrefused⟩

end Sys2Proof.Machine
end
